-- ==== Sys2Proof/Word.lean ====
section
/-! DEFINITION. The bit-vector widths of the block (00_scope.md R8, R12): bytes, 16-bit words, and the operand fields. -/

namespace Sys2Proof

/-- An 8-bit value: a memory byte, a general register, a timer, or the immediate `kk`. -/
abbrev Byte := BitVec 8

/-- A 16-bit value: the opcode, `pc`, `I`, or a stack slot. -/
abbrev Word := BitVec 16

/-- The operand fields `x` and `y`: a general-register index, in range by construction (R103). -/
abbrev RegIx := BitVec 4

/-- The operand field `n`: the row count of Dxyn (R102). -/
abbrev Nibble := BitVec 4

/-- The operand field `nnn`: a 12-bit absolute address (R102). -/
abbrev Addr12 := BitVec 12

/-- Index of the flag register VF (00_scope.md R8 `FLAG_REG`). -/
abbrev flagReg : RegIx := 15#4

end Sys2Proof
end

