-- ==== Sys2Proof/Config.lean ====
section
/-! DEFINITION. What an implementation fixes (00_scope.md R8, R9) and the values the spec leaves open.
Every constant here is opaque and has no body: a statement that is proved holds whatever its value. -/

namespace Sys2Proof.Config

/-- `STACK_OVERFLOW` (R8, D9): what CALL does at `sp = 15`. -/
inductive StackOverflow where
  | overwriteTop
  | dropPush
  deriving DecidableEq, Repr, Inhabited

/-- `STACK_UNDERFLOW` (R8, D10): what RET does at `sp = 0`. -/
inductive StackUnderflow where
  | readSlot0
  | dropPop
  deriving DecidableEq, Repr, Inhabited

/-- `GLYPH_WRITE` (R8, D16): whether a write into the glyph region also sets `faulted`. -/
inductive GlyphWrite where
  | perform
  | fault
  deriving DecidableEq, Repr, Inhabited

/-- `FONT_BASE` (R8, D7), OPEN. The type states its one constraint `FONT_BASE + 80 <= 0x200`.
DESIGN CHOICE (log entry 1): safe, no proof can see the value. -/
opaque fontBase : Fin 433

/-- `FONT_GLYPHS` (R8, D8), OPEN: the 80-byte table, glyph `d` at bytes `5*d .. 5*d+4` (R291).
DESIGN CHOICE (log entry 2): safe, no proof can see a byte of it. -/
opaque fontGlyphs : Vector Byte 80

/-- `STACK_OVERFLOW` (D9). DESIGN CHOICE (log entry 3): safe, both readings stay possible. -/
opaque stackOverflow : StackOverflow

/-- `STACK_UNDERFLOW` (D10). DESIGN CHOICE (log entry 4): safe, both readings stay possible. -/
opaque stackUnderflow : StackUnderflow

/-- `GLYPH_WRITE` (D16). DESIGN CHOICE (log entry 5): safe, both readings stay possible. -/
opaque glyphWrite : GlyphWrite

/-- `RandomByte()` (R184, D15): the byte of the `k`-th draw, a free value.
DESIGN CHOICE (log entry 6): safe, a statement holds for every sequence of draws. -/
opaque randomByte : Nat → Byte

/-- `KeyOOR()` (R240, D14): the pressed state of the `k`-th draw for a key index above 15, a free value.
DESIGN CHOICE (log entry 7): safe, both outcomes stay possible. -/
opaque keyOutOfRange : Nat → Bool

end Sys2Proof.Config
end

