-- ==== Sys2Proof/Syntax.lean ====
section
/-! DEFINITION. The 34 instructions (30_encoding.md R105), one constructor per row of the opcode table. -/

namespace Sys2Proof

/-- The instruction set. Operands are the fields of R12. SHR and SHL keep the `y` that the decoder
extracts and no effect uses (R106), so that no bit of an encoding is lost. -/
inductive Instr where
  /-- 00E0 (R221). -/
  | cls
  /-- 00EE (R152). -/
  | ret
  /-- 1nnn (R153). -/
  | jp (nnn : Addr12)
  /-- 2nnn (R154). -/
  | call (nnn : Addr12)
  /-- 3xkk (R155). -/
  | seImm (x : RegIx) (kk : Byte)
  /-- 4xkk (R156). -/
  | sneImm (x : RegIx) (kk : Byte)
  /-- 5xy0 (R157). -/
  | seReg (x y : RegIx)
  /-- 6xkk (R171). -/
  | ldImm (x : RegIx) (kk : Byte)
  /-- 7xkk (R172). -/
  | addImm (x : RegIx) (kk : Byte)
  /-- 8xy0 (R173). -/
  | ldReg (x y : RegIx)
  /-- 8xy1 (R174). -/
  | or (x y : RegIx)
  /-- 8xy2 (R175). -/
  | and (x y : RegIx)
  /-- 8xy3 (R176). -/
  | xor (x y : RegIx)
  /-- 8xy4 (R177). -/
  | addReg (x y : RegIx)
  /-- 8xy5 (R178). -/
  | sub (x y : RegIx)
  /-- 8xy6 (R179). -/
  | shr (x y : RegIx)
  /-- 8xy7 (R180). -/
  | subn (x y : RegIx)
  /-- 8xyE (R181). -/
  | shl (x y : RegIx)
  /-- 9xy0 (R158). -/
  | sneReg (x y : RegIx)
  /-- Annn (R201). -/
  | ldI (nnn : Addr12)
  /-- Bnnn (R159). -/
  | jpV0 (nnn : Addr12)
  /-- Cxkk (R182). -/
  | rnd (x : RegIx) (kk : Byte)
  /-- Dxyn (R222). -/
  | drw (x y : RegIx) (n : Nibble)
  /-- Ex9E (R241). -/
  | skp (x : RegIx)
  /-- ExA1 (R242). -/
  | sknp (x : RegIx)
  /-- Fx07 (R243). -/
  | ldVxDT (x : RegIx)
  /-- Fx0A (R244). -/
  | ldVxK (x : RegIx)
  /-- Fx15 (R245). -/
  | ldDTVx (x : RegIx)
  /-- Fx18 (R246). -/
  | ldSTVx (x : RegIx)
  /-- Fx1E (R202). -/
  | addI (x : RegIx)
  /-- Fx29 (R203). -/
  | ldF (x : RegIx)
  /-- Fx33 (R204). -/
  | ldB (x : RegIx)
  /-- Fx55 (R205). -/
  | ldMemVx (x : RegIx)
  /-- Fx65 (R206). -/
  | ldVxMem (x : RegIx)
  deriving DecidableEq, Repr

end Sys2Proof
end

