-- ==== Sys2Proof/WellFormed.lean ====
section
/-! DEFINITION. The checks on what is given to the block: operand numbers against their fields (30_encoding.md R102,
R103), program images (70_reset_and_hazards.md R292) and key indices (60_exceptions.md R272, R273). -/

namespace Sys2Proof

/-- A number fits a field of `width` bits. -/
def operandFits (width n : Nat) : Bool := decide (n < 2 ^ width)

/-- Every operand of the instruction fits its field: 4 bits for a register or a row count, 8 for `kk`,
12 for `nnn`. The operand types make this hold of every term (R103: "always valid register-file
indices by construction"), which `Sys2Proof.Laws.instr_wellFormed` states. -/
def Instr.wellFormed : Instr → Bool
  | .cls => true
  | .ret => true
  | .jp nnn => operandFits 12 nnn.toNat
  | .call nnn => operandFits 12 nnn.toNat
  | .seImm x kk => operandFits 4 x.toNat && operandFits 8 kk.toNat
  | .sneImm x kk => operandFits 4 x.toNat && operandFits 8 kk.toNat
  | .seReg x y => operandFits 4 x.toNat && operandFits 4 y.toNat
  | .ldImm x kk => operandFits 4 x.toNat && operandFits 8 kk.toNat
  | .addImm x kk => operandFits 4 x.toNat && operandFits 8 kk.toNat
  | .ldReg x y => operandFits 4 x.toNat && operandFits 4 y.toNat
  | .or x y => operandFits 4 x.toNat && operandFits 4 y.toNat
  | .and x y => operandFits 4 x.toNat && operandFits 4 y.toNat
  | .xor x y => operandFits 4 x.toNat && operandFits 4 y.toNat
  | .addReg x y => operandFits 4 x.toNat && operandFits 4 y.toNat
  | .sub x y => operandFits 4 x.toNat && operandFits 4 y.toNat
  | .shr x y => operandFits 4 x.toNat && operandFits 4 y.toNat
  | .subn x y => operandFits 4 x.toNat && operandFits 4 y.toNat
  | .shl x y => operandFits 4 x.toNat && operandFits 4 y.toNat
  | .sneReg x y => operandFits 4 x.toNat && operandFits 4 y.toNat
  | .ldI nnn => operandFits 12 nnn.toNat
  | .jpV0 nnn => operandFits 12 nnn.toNat
  | .rnd x kk => operandFits 4 x.toNat && operandFits 8 kk.toNat
  | .drw x y n => operandFits 4 x.toNat && operandFits 4 y.toNat && operandFits 4 n.toNat
  | .skp x => operandFits 4 x.toNat
  | .sknp x => operandFits 4 x.toNat
  | .ldVxDT x => operandFits 4 x.toNat
  | .ldVxK x => operandFits 4 x.toNat
  | .ldDTVx x => operandFits 4 x.toNat
  | .ldSTVx x => operandFits 4 x.toNat
  | .addI x => operandFits 4 x.toNat
  | .ldF x => operandFits 4 x.toNat
  | .ldB x => operandFits 4 x.toNat
  | .ldMemVx x => operandFits 4 x.toNat
  | .ldVxMem x => operandFits 4 x.toNat

/-- `MAX_PROGRAM` (R8): 4096 - 0x200 bytes. -/
def maxProgram : Nat := 3584

/-- A program image the load interface accepts: "no more bytes than `memory_capacity - 0x200`" (R292). -/
def imageWellFormed (image : List Byte) : Bool := decide (image.length ≤ maxProgram)

/-- A key index inside the host interface: 0..15 (R272, R273). -/
def keyIndexWellFormed (k : Nat) : Bool := decide (k < 16)

end Sys2Proof
end

