-- ==== Sys2Proof/Decode.lean ====
section
/-! DEFINITION. Decoding (30_encoding.md R100-R110, 40_cycle.md R133), the opcode map as data (R105), the encoder, and
the host's reading of a table word. Decoding is total and reads only the word. -/

namespace Sys2Proof

/-! ## Operand fields (R12, R133) -/

/-- `op[15:12]`, the primary group (R104). -/
def fieldGroup (op : Word) : Nibble := op.extractLsb' 12 4

/-- `x = op[11:8]`. -/
def fieldX (op : Word) : RegIx := op.extractLsb' 8 4

/-- `y = op[7:4]`. -/
def fieldY (op : Word) : RegIx := op.extractLsb' 4 4

/-- `n = op[3:0]`. -/
def fieldN (op : Word) : Nibble := op.extractLsb' 0 4

/-- `kk = op[7:0]`. -/
def fieldKK (op : Word) : Byte := op.extractLsb' 0 8

/-- `nnn = op[11:0]`. -/
def fieldNNN (op : Word) : Addr12 := op.extractLsb' 0 12

/-! ## The two-level lookup (R104) -/

/-- Group 0x0 compares the whole word. -/
def decodeGroup0 (op : Word) : Option Instr :=
  if op = 0x00E0#16 then some .cls
  else if op = 0x00EE#16 then some .ret
  else none

/-- Groups 0x5 and 0x9 accept only `n = 0`. -/
def decodeZeroNibble (op : Word) (i : Instr) : Option Instr :=
  if fieldN op = 0x0#4 then some i else none

/-- Group 0x8 selects by the low nibble. -/
def decodeGroup8 (op : Word) : Option Instr :=
  match (fieldN op).toNat with
  | 0x0 => some (.ldReg (fieldX op) (fieldY op))
  | 0x1 => some (.or (fieldX op) (fieldY op))
  | 0x2 => some (.and (fieldX op) (fieldY op))
  | 0x3 => some (.xor (fieldX op) (fieldY op))
  | 0x4 => some (.addReg (fieldX op) (fieldY op))
  | 0x5 => some (.sub (fieldX op) (fieldY op))
  | 0x6 => some (.shr (fieldX op) (fieldY op))
  | 0x7 => some (.subn (fieldX op) (fieldY op))
  | 0xE => some (.shl (fieldX op) (fieldY op))
  | _ => none

/-- Group 0xE selects by the low byte. -/
def decodeGroupE (op : Word) : Option Instr :=
  match (fieldKK op).toNat with
  | 0x9E => some (.skp (fieldX op))
  | 0xA1 => some (.sknp (fieldX op))
  | _ => none

/-- Group 0xF selects by the low byte. -/
def decodeGroupF (op : Word) : Option Instr :=
  match (fieldKK op).toNat with
  | 0x07 => some (.ldVxDT (fieldX op))
  | 0x0A => some (.ldVxK (fieldX op))
  | 0x15 => some (.ldDTVx (fieldX op))
  | 0x18 => some (.ldSTVx (fieldX op))
  | 0x1E => some (.addI (fieldX op))
  | 0x29 => some (.ldF (fieldX op))
  | 0x33 => some (.ldB (fieldX op))
  | 0x55 => some (.ldMemVx (fieldX op))
  | 0x65 => some (.ldVxMem (fieldX op))
  | _ => none

/-- The instruction a word stands for; `none` for the unrecognised space (R107, R110). -/
def decodeWord (op : Word) : Option Instr :=
  match (fieldGroup op).toNat with
  | 0x0 => decodeGroup0 op
  | 0x1 => some (.jp (fieldNNN op))
  | 0x2 => some (.call (fieldNNN op))
  | 0x3 => some (.seImm (fieldX op) (fieldKK op))
  | 0x4 => some (.sneImm (fieldX op) (fieldKK op))
  | 0x5 => decodeZeroNibble op (.seReg (fieldX op) (fieldY op))
  | 0x6 => some (.ldImm (fieldX op) (fieldKK op))
  | 0x7 => some (.addImm (fieldX op) (fieldKK op))
  | 0x8 => decodeGroup8 op
  | 0x9 => decodeZeroNibble op (.sneReg (fieldX op) (fieldY op))
  | 0xA => some (.ldI (fieldNNN op))
  | 0xB => some (.jpV0 (fieldNNN op))
  | 0xC => some (.rnd (fieldX op) (fieldKK op))
  | 0xD => some (.drw (fieldX op) (fieldY op) (fieldN op))
  | 0xE => decodeGroupE op
  | 0xF => decodeGroupF op
  | _ => none

/-- The word of two bytes, the first the high byte (R74, R100). -/
def wordOfBytes (hi lo : Byte) : Word := hi ++ lo

/-- The high byte of a word, stored first (R100). -/
def highByte (w : Word) : Byte := w.extractLsb' 8 8

/-- The low byte of a word, stored second (R100). -/
def lowByte (w : Word) : Byte := w.extractLsb' 0 8

/-- What decoding a byte sequence answers. -/
inductive Decoded where
  /-- One instruction and the bytes after it. -/
  | instr (i : Instr) (rest : List Byte)
  /-- The first two bytes are a word of the unrecognised space (R107), named. -/
  | unrecognised (op : Word) (rest : List Byte)
  /-- Fewer than two bytes: no opcode (R100). -/
  | tooShort
  deriving DecidableEq, Repr

/-- Decoding of any bytes: two bytes make one opcode, high byte first (R100). -/
def decode : List Byte → Decoded
  | hi :: lo :: rest =>
    match decodeWord (wordOfBytes hi lo) with
    | some i => .instr i rest
    | none => .unrecognised (wordOfBytes hi lo) rest
  | _ => .tooShort

/-! ## The encoder (formats of R101, rows of R105) -/

/-- Format A: group and address. -/
def formatA (group : Nibble) (nnn : Addr12) : Word := group ++ nnn

/-- Format XK: group, register, byte. Format XS is the same with a sub-op byte. -/
def formatXK (group : Nibble) (x : RegIx) (kk : Byte) : Word := group ++ (x ++ kk)

/-- Format XY: group, two registers, sub-op nibble. Format XYN is the same with a row count. -/
def formatXY (group : Nibble) (x y : RegIx) (n : Nibble) : Word := group ++ (x ++ (y ++ n))

/-- The word of an instruction (R105). -/
def encode : Instr → Word
  | .cls => 0x00E0#16
  | .ret => 0x00EE#16
  | .jp nnn => formatA 0x1#4 nnn
  | .call nnn => formatA 0x2#4 nnn
  | .seImm x kk => formatXK 0x3#4 x kk
  | .sneImm x kk => formatXK 0x4#4 x kk
  | .seReg x y => formatXY 0x5#4 x y 0x0#4
  | .ldImm x kk => formatXK 0x6#4 x kk
  | .addImm x kk => formatXK 0x7#4 x kk
  | .ldReg x y => formatXY 0x8#4 x y 0x0#4
  | .or x y => formatXY 0x8#4 x y 0x1#4
  | .and x y => formatXY 0x8#4 x y 0x2#4
  | .xor x y => formatXY 0x8#4 x y 0x3#4
  | .addReg x y => formatXY 0x8#4 x y 0x4#4
  | .sub x y => formatXY 0x8#4 x y 0x5#4
  | .shr x y => formatXY 0x8#4 x y 0x6#4
  | .subn x y => formatXY 0x8#4 x y 0x7#4
  | .shl x y => formatXY 0x8#4 x y 0xE#4
  | .sneReg x y => formatXY 0x9#4 x y 0x0#4
  | .ldI nnn => formatA 0xA#4 nnn
  | .jpV0 nnn => formatA 0xB#4 nnn
  | .rnd x kk => formatXK 0xC#4 x kk
  | .drw x y n => formatXY 0xD#4 x y n
  | .skp x => formatXK 0xE#4 x 0x9E#8
  | .sknp x => formatXK 0xE#4 x 0xA1#8
  | .ldVxDT x => formatXK 0xF#4 x 0x07#8
  | .ldVxK x => formatXK 0xF#4 x 0x0A#8
  | .ldDTVx x => formatXK 0xF#4 x 0x15#8
  | .ldSTVx x => formatXK 0xF#4 x 0x18#8
  | .addI x => formatXK 0xF#4 x 0x1E#8
  | .ldF x => formatXK 0xF#4 x 0x29#8
  | .ldB x => formatXK 0xF#4 x 0x33#8
  | .ldMemVx x => formatXK 0xF#4 x 0x55#8
  | .ldVxMem x => formatXK 0xF#4 x 0x65#8

/-- The bytes of an instruction in memory order (R100). -/
def encodeBytes (i : Instr) : List Byte := [highByte (encode i), lowByte (encode i)]

/-! ## The opcode map as data (R105) -/

/-- One row of the opcode map: a word belongs to it when `(op & mask) == pattern`. -/
structure OpcodeRow where
  mnemonic : String
  mask : Word
  pattern : Word
  deriving DecidableEq, Repr

/-- A word belongs to a row: `(op & mask) == match` (R105). -/
def rowMatches (op : Word) (r : OpcodeRow) : Bool := op &&& r.mask == r.pattern

/-- The row of an instruction. -/
def rowOf : Instr → OpcodeRow
  | .cls => ⟨"CLS", 0xFFFF#16, 0x00E0#16⟩
  | .ret => ⟨"RET", 0xFFFF#16, 0x00EE#16⟩
  | .jp _ => ⟨"JP", 0xF000#16, 0x1000#16⟩
  | .call _ => ⟨"CALL", 0xF000#16, 0x2000#16⟩
  | .seImm _ _ => ⟨"SE_imm", 0xF000#16, 0x3000#16⟩
  | .sneImm _ _ => ⟨"SNE_imm", 0xF000#16, 0x4000#16⟩
  | .seReg _ _ => ⟨"SE_reg", 0xF00F#16, 0x5000#16⟩
  | .ldImm _ _ => ⟨"LD_imm", 0xF000#16, 0x6000#16⟩
  | .addImm _ _ => ⟨"ADD_imm", 0xF000#16, 0x7000#16⟩
  | .ldReg _ _ => ⟨"LD_reg", 0xF00F#16, 0x8000#16⟩
  | .or _ _ => ⟨"OR", 0xF00F#16, 0x8001#16⟩
  | .and _ _ => ⟨"AND", 0xF00F#16, 0x8002#16⟩
  | .xor _ _ => ⟨"XOR", 0xF00F#16, 0x8003#16⟩
  | .addReg _ _ => ⟨"ADD_reg", 0xF00F#16, 0x8004#16⟩
  | .sub _ _ => ⟨"SUB", 0xF00F#16, 0x8005#16⟩
  | .shr _ _ => ⟨"SHR", 0xF00F#16, 0x8006#16⟩
  | .subn _ _ => ⟨"SUBN", 0xF00F#16, 0x8007#16⟩
  | .shl _ _ => ⟨"SHL", 0xF00F#16, 0x800E#16⟩
  | .sneReg _ _ => ⟨"SNE_reg", 0xF00F#16, 0x9000#16⟩
  | .ldI _ => ⟨"LD_I", 0xF000#16, 0xA000#16⟩
  | .jpV0 _ => ⟨"JP_V0", 0xF000#16, 0xB000#16⟩
  | .rnd _ _ => ⟨"RND", 0xF000#16, 0xC000#16⟩
  | .drw _ _ _ => ⟨"DRW", 0xF000#16, 0xD000#16⟩
  | .skp _ => ⟨"SKP", 0xF0FF#16, 0xE09E#16⟩
  | .sknp _ => ⟨"SKNP", 0xF0FF#16, 0xE0A1#16⟩
  | .ldVxDT _ => ⟨"LD_Vx_DT", 0xF0FF#16, 0xF007#16⟩
  | .ldVxK _ => ⟨"LD_Vx_K", 0xF0FF#16, 0xF00A#16⟩
  | .ldDTVx _ => ⟨"LD_DT_Vx", 0xF0FF#16, 0xF015#16⟩
  | .ldSTVx _ => ⟨"LD_ST_Vx", 0xF0FF#16, 0xF018#16⟩
  | .addI _ => ⟨"ADD_I", 0xF0FF#16, 0xF01E#16⟩
  | .ldF _ => ⟨"LD_F", 0xF0FF#16, 0xF029#16⟩
  | .ldB _ => ⟨"LD_B", 0xF0FF#16, 0xF033#16⟩
  | .ldMemVx _ => ⟨"LD_mem_Vx", 0xF0FF#16, 0xF055#16⟩
  | .ldVxMem _ => ⟨"LD_Vx_mem", 0xF0FF#16, 0xF065#16⟩

/-- One instruction of each row, in the order of R105, every operand 0. -/
def rowSamples : List Instr :=
  [.cls, .ret, .jp 0, .call 0, .seImm 0 0, .sneImm 0 0, .seReg 0 0, .ldImm 0 0, .addImm 0 0, .ldReg 0 0]
    ++ [.or 0 0, .and 0 0, .xor 0 0, .addReg 0 0, .sub 0 0, .shr 0 0, .subn 0 0, .shl 0 0, .sneReg 0 0]
    ++ [.ldI 0, .jpV0 0, .rnd 0 0, .drw 0 0 0, .skp 0, .sknp 0, .ldVxDT 0, .ldVxK 0, .ldDTVx 0]
    ++ [.ldSTVx 0, .addI 0, .ldF 0, .ldB 0, .ldMemVx 0, .ldVxMem 0]

/-- The 34 rows of R105. -/
def opcodeTable : List OpcodeRow := rowSamples.map rowOf

/-! ## The host's reading of a table word -/

/-- The 16-bit word of a table row given as a number with `nbits` bits, the bits above them 0. Every
instruction is one 16-bit word (R100), so the table's bit 0 is the word's bit 0. -/
def tableWord (nbits w : Nat) : Word := BitVec.ofNat 16 (w % 2 ^ nbits)

/-- The instruction the decoder reads from a table word, laid out high byte first (R100). -/
def decodeTableWord (nbits w : Nat) : Option Instr :=
  match decode [highByte (tableWord nbits w), lowByte (tableWord nbits w)] with
  | .instr i _ => some i
  | .unrecognised _ _ => none
  | .tooShort => none

end Sys2Proof
end

