-- ==== Sys2Proof/Machine/State.lean ====
section
/-! DEFINITION. The state record (10_state.md R30), the ways a step or a host action can stop, and the state after
construction (10_state.md R47, 70_reset_and_hazards.md R290). -/

namespace Sys2Proof.Machine

/-- Memory as cells in canonical form (`Memory.wf`, Machine/Ops.lean): an address that is not listed
reads as its reset byte. -/
abbrev Memory := List (Nat × Byte)

/-- The framebuffer: 32 rows of 64 pixels, each exactly 0 or 1 (R43, R220). -/
abbrev Framebuffer := Vector (Vector Bool 64) 32

/-- One report on the diagnostic channel: the word and the unmasked address it was fetched from (R262). -/
structure DiagRecord where
  op : Word
  addr : Word
  deriving DecidableEq, Repr

/-- The block's whole state (R30), and two counters of the free values drawn so far. -/
structure State where
  /-- `M`, 4096 bytes (R70). -/
  mem : Memory
  /-- `V[0]`..`V[15]` (R32); `V[15]` is VF (R33). -/
  v : Vector Byte 16
  /-- The address register `I` (R35). -/
  i : Word
  /-- The program counter (R36, R37). -/
  pc : Word
  /-- The stack pointer, "value always in [0, 15]" (R38). DESIGN CHOICE (log entry 12): safe. -/
  sp : Fin 16
  /-- `stack[0]`..`stack[15]` (R39). -/
  stack : Vector Word 16
  /-- The delay timer `DT` (R41). -/
  dt : Byte
  /-- The sound timer `ST` (R42). -/
  st : Byte
  /-- `FB` (R43). -/
  fb : Framebuffer
  /-- The input latch `Key[0]`..`Key[15]` (R44). -/
  key : Vector Bool 16
  /-- The unknown-opcode reports emitted so far, oldest first (R262). -/
  diag : List DiagRecord
  /-- The sticky mark of `GLYPH_WRITE = FAULT` (R78). -/
  faulted : Bool
  /-- The model's own: how many random bytes have been drawn (R184; log entry 6). -/
  rndDraws : Nat
  /-- The model's own: how many out-of-range key draws have been made (R240; log entry 7). -/
  keyDraws : Nat
  deriving DecidableEq, Repr

/-- Faults: there are none. "The block raises no exception. It has no trap, no cause register, no cause
codes, no exception vector and no faulting instruction" (R260). Nothing raises one; safe. -/
inductive Fault where
  deriving DecidableEq, Repr

/-- Refusals. No step ends in one; host actions outside the stated interface do. -/
inductive Refusal where
  /-- Raised by an arm of exec that has no meaning yet; no arm is left so. Safe. -/
  | notModelled (mnemonic : String)
  /-- Raised by the host action load for an image of more than 3584 bytes (R292, X12). Safe. -/
  | imageTooLong
  /-- Raised by the host action load after a load or after the first step (R292, X12). Safe. -/
  | loadNotAllowed
  /-- Raised by the host actions on the input latch for an index outside 0..15 (R272, R273, X13). Safe. -/
  | keyIndexOutOfRange
  deriving DecidableEq, Repr

/-- The answer of a meaning or of a step. -/
abbrev Result := Host.Outcome State Fault Refusal

/-- The state after construction (R47, R290): `pc` at 0x200, the glyph table in memory (an unlisted
address reads as its reset byte), every other field 0, false or empty (D6; log entry 8, unsafe). -/
def State.reset : State where
  mem := []
  v := Vector.replicate 16 0x00#8
  i := 0x0000#16
  pc := 0x0200#16
  sp := 0
  stack := Vector.replicate 16 0x0000#16
  dt := 0x00#8
  st := 0x00#8
  fb := Vector.replicate 32 (Vector.replicate 64 false)
  key := Vector.replicate 16 false
  diag := []
  faulted := false
  rndDraws := 0
  keyDraws := 0

end Sys2Proof.Machine
end

