-- ==== Sys2Proof/Machine/Ops.lean ====
section
/-! DEFINITION. The named operations over memory, registers, the stack, the latch and the diagnostic channel. Every
access of a meaning goes through one of these. -/

namespace Sys2Proof.Machine

/-! ## The parameters of the block (00_scope.md R8), read from Config in one place -/

/-- `MEM_SIZE` (R8, R70). -/
def memSize : Nat := 4096

/-- `ADDR_MASK` (R8, R72). -/
def addrMask : Nat := 0x0FFF

/-- `PROGRAM_BASE` (R8). -/
def programBase : Nat := 0x200

/-- `FONT_BASE` (R8, D7; log entry 1). -/
def fontBase : Nat := Config.fontBase.val

/-- `GLYPH_COUNT` x `GLYPH_BYTES` (R8). -/
def glyphBytes : Nat := 80

/-- Byte `k` of `FONT_GLYPHS` (R291, D8; log entry 2). -/
def glyphByte (k : Nat) : Byte := Config.fontGlyphs.getD k 0x00#8

/-- `STACK_OVERFLOW` (D9; log entry 3). -/
def overflowMode : Config.StackOverflow := Config.stackOverflow

/-- `STACK_UNDERFLOW` (D10; log entry 4). -/
def underflowMode : Config.StackUnderflow := Config.stackUnderflow

/-- `GLYPH_WRITE` (D16; log entry 5). -/
def glyphWriteMode : Config.GlyphWrite := Config.glyphWrite

/-! ## Memory (20_memory.md) -/

/-- The byte index of an exactly computed address: `a & 0x0FFF` (R72, D2; log entry 9). -/
def effective (a : Nat) : Nat := a &&& addrMask

/-- The index lies in the glyph region `[FONT_BASE, FONT_BASE + 80)` (R77), all of it below 0x200. -/
def inGlyphRegion (a : Nat) : Bool :=
  decide (a < programBase) && (decide (fontBase ≤ a) && decide (a < fontBase + glyphBytes))

/-- What an unlisted index reads as: its byte after construction, the glyph table in the glyph region
and 0x00 elsewhere (R47, R77, R291; log entry 11). -/
def resetByte (a : Nat) : Byte := if inGlyphRegion a then glyphByte (a - fontBase) else 0x00#8

/-- The byte a memory holds at an index. -/
def memGet : Memory → Nat → Byte
  | [], a => resetByte a
  | (k, w) :: m, a => if k = a then w else memGet m a

/-- A memory without its cells at an index. -/
def memErase (m : Memory) (a : Nat) : Memory := m.filter (fun c => c.1 != a)

/-- A memory with a cell put before the first cell of a higher address. -/
def memInsert : Memory → Nat → Byte → Memory
  | [], a, b => [(a, b)]
  | (k, w) :: m, a, b => if a < k then (a, b) :: (k, w) :: m else (k, w) :: memInsert m a b

/-- A memory with the byte at an index replaced. The reset byte is not listed. -/
def memSet (m : Memory) (a : Nat) (b : Byte) : Memory :=
  if b = resetByte a then memErase m a else memInsert (memErase m a) a b

/-- The canonical form: addresses strictly rising and inside memory, no cell equal to its reset byte. -/
abbrev Memory.wf (m : Memory) : Prop :=
  m.Pairwise (fun c d => c.1 < d.1) ∧ ∀ c ∈ m, c.1 < memSize ∧ c.2 ≠ resetByte c.1

/-- Consecutive bytes put into memory from an address on, each address masked separately (R72). -/
def placeBytes (m : Memory) (a : Nat) : List Byte → Memory
  | [] => m
  | b :: bs => placeBytes (memSet m (effective a) b) (a + 1) bs

/-- `MemRead(a, 1)` (R13). -/
def readByte (s : State) (a : Nat) : Byte := memGet s.mem (effective a)

/-- The mark a write to an address leaves under `GLYPH_WRITE = FAULT` (R78). -/
def marksGlyphWrite (a : Nat) : Bool :=
  inGlyphRegion (effective a) && decide (glyphWriteMode = .fault)

/-- `MemWrite(a, 1, b)` (R13): the write is always made; `faulted` follows R78. -/
def writeByte (s : State) (a : Nat) (b : Byte) : State :=
  { s with mem := memSet s.mem (effective a) b, faulted := s.faulted || marksGlyphWrite a }

/-- Bytes written to consecutive addresses in ascending order (R80), each masked separately. -/
def writeBytes (s : State) (a : Nat) : List Byte → State
  | [] => s
  | b :: bs => writeBytes (writeByte s a b) (a + 1) bs

/-! ## Registers (10_state.md) -/

/-- `V[x]` (R32). -/
def getV (s : State) (x : RegIx) : Byte := s.v[x.toNat]

/-- `V[x] <- b` (R32). -/
def setV (s : State) (x : RegIx) (b : Byte) : State := { s with v := s.v.set x.toNat b }

/-- `I <- w` (R35). -/
def setI (s : State) (w : Word) : State := { s with i := w }

/-- `pc <- w` (R36), not masked (R37). -/
def setPc (s : State) (w : Word) : State := { s with pc := w }

/-- `DT <- b` (R41). -/
def setDT (s : State) (b : Byte) : State := { s with dt := b }

/-- `ST <- b` (R42). -/
def setST (s : State) (b : Byte) : State := { s with st := b }

/-- The framebuffer replaced. -/
def setFb (s : State) (fb : Framebuffer) : State := { s with fb := fb }

/-- The pc advance of a step, `pc <- (a + 2) mod 2^16` (R132). -/
def advancePc (s : State) : State := setPc s (s.pc + 2#16)

/-- `skip_if(c)`: two more when the condition holds (R151, R139). -/
def skipIf (c : Bool) (s : State) : State := if c then setPc s (s.pc + 2#16) else s

/-! ## The call stack (R38-R40) -/

/-- `stack[j]` (R39). -/
def getStack (s : State) (j : Fin 16) : Word := s.stack[j]

/-- `stack[j] <- w` (R39). -/
def setStack (s : State) (j : Fin 16) (w : Word) : State := { s with stack := s.stack.set j w }

/-- `sp <- j` (R38). -/
def setSp (s : State) (j : Fin 16) : State := { s with sp := j }

/-- The push of CALL (R154): `sp` incremented first, saturating, then the store; at `sp = 15` by
`STACK_OVERFLOW`. -/
def pushReturn (s : State) (ret : Word) : State :=
  if h : s.sp.val < 15 then
    setStack (setSp s ⟨s.sp.val + 1, by omega⟩) ⟨s.sp.val + 1, by omega⟩ ret
  else
    match overflowMode with
    | .overwriteTop => setStack s 15 ret
    | .dropPush => s

/-- The pop of RET (R152): `pc` from the slot, then `sp` decremented, saturating; at `sp = 0` by
`STACK_UNDERFLOW`. -/
def popReturn (s : State) : State :=
  if s.sp.val = 0 ∧ underflowMode = .dropPop then s
  else setSp (setPc s (getStack s s.sp)) ⟨s.sp.val - 1, by omega⟩

/-! ## Input latch, free values, diagnostics -/

/-- `Key(k)` for an index of the latch (R44). -/
def getKey (s : State) (k : Fin 16) : Bool := s.key[k]

/-- The least pressed key, scanning "all 16 latch entries in index order" (R244). -/
def firstKey (s : State) : Option (Fin 16) := (List.finRange 16).find? (getKey s)

/-- The next random byte (R184). -/
def randomByte (s : State) : Byte := Config.randomByte s.rndDraws

/-- One random byte is used up (R184). -/
def countRandom (s : State) : State := { s with rndDraws := s.rndDraws + 1 }

/-- The next `KeyOOR()` (R240). -/
def keyOutOfRange (s : State) : Bool := Config.keyOutOfRange s.keyDraws

/-- One `KeyOOR()` is used up (R240). -/
def countKeyDraw (s : State) : State := { s with keyDraws := s.keyDraws + 1 }

/-- `report Unknown(op, a)`: one record appended to `diag`, nothing else (R135, R262). The block takes
no exception; this is all that an unrecognised word does. -/
def reportUnknown (s : State) (op a : Word) : State := { s with diag := s.diag ++ [⟨op, a⟩] }

/-! ## Fetch (40_cycle.md R131) -/

/-- The opcode at `pc`: two bytes, high byte first, each address masked (R74, R131). -/
def fetchWord (s : State) : Word :=
  wordOfBytes (readByte s s.pc.toNat) (readByte s (s.pc.toNat + 1))

/-- The same memory with an opcode stored where the next fetch reads it. -/
def placeFetchWord (s : State) (op : Word) : State :=
  { s with mem := placeBytes s.mem s.pc.toNat [highByte op, lowByte op] }

end Sys2Proof.Machine
end

