-- ==== Sys2Proof/Machine/Flags.lean ====
section
/-! DEFINITION. The flag computations (42_alu.md R177-R181) and the flag-last write (40_cycle.md R137). -/

namespace Sys2Proof.Machine

/-- A flag as the byte VF holds: 1 or 0. -/
def flagByte (c : Bool) : Byte := if c then 0x01#8 else 0x00#8

/-- Carry out of bit 7: the exact sum exceeds 255 (R177). -/
def carryOut (a b : Byte) : Byte := flagByte (decide (255 < a.toNat + b.toNat))

/-- NOT borrow of `a - b`: 1 when `a >= b`, equal operands included (R178, R180). -/
def notBorrow (a b : Byte) : Byte := flagByte (decide (b.toNat ≤ a.toNat))

/-- The bit a right shift by one moves out, the old bit 0 (R179). -/
def shiftedOutRight (a : Byte) : Byte := a &&& 0x01#8

/-- The bit a left shift by one moves out, the old bit 7 (R181). -/
def shiftedOutLeft (a : Byte) : Byte := a >>> 7

/-- The result to `V[x]`, then the flag to `V[15]`, last: with `x = 15` the flag wins (R137). -/
def writeResultThenFlag (s : State) (x : RegIx) (r f : Byte) : State := setV (setV s x r) flagReg f

end Sys2Proof.Machine
end

