-- ==== Sys2Proof/Machine/Operands.lean ====
section
/-! DEFINITION. Operand forms (30_encoding.md R102, R103): zero extension, addresses through `I`, key operands, sprite
bits and pixel coordinates, register ranges and decimal digits. -/

namespace Sys2Proof.Machine

/-- `zext_16` of a byte (R10). -/
def zextByte (b : Byte) : Word := b.setWidth 16

/-- `zext_16(nnn)` (R102). -/
def zextAddr (nnn : Addr12) : Word := nnn.setWidth 16

/-- The address `I + k`, computed exactly; the access masks it (R72, R200). -/
def indexed (s : State) (k : Nat) : Nat := s.i.toNat + k

/-- The address of glyph `V[x]`: `(FONT_BASE + 5 * V[x]) mod 2^16`, the whole register (R203). -/
def glyphAddress (b : Byte) : Word := BitVec.ofNat 16 (fontBase + 5 * b.toNat)

/-- A register index counted from 0 (R205, R206). -/
def regIx (k : Nat) : RegIx := BitVec.ofNat 4 k

/-- The values of `V[0]`..`V[x]` in ascending order, `x` included (R205). -/
def regsUpTo (s : State) (x : RegIx) : List Byte :=
  (List.range (x.toNat + 1)).map (fun k => getV s (regIx k))

/-- `V[0]`..`V[x]` loaded from `I`, `I + 1`, .. in ascending order, `x` included (R206). -/
def loadRegs (s : State) (x : RegIx) : State :=
  (List.range (x.toNat + 1)).foldl (fun t k => setV t (regIx k) (readByte t (indexed t k))) s

/-- The three decimal digits of a byte, hundreds first (R204). -/
def decimalDigits (b : Byte) : List Byte :=
  [BitVec.ofNat 8 (b.toNat / 100), BitVec.ofNat 8 (b.toNat / 10 % 10), BitVec.ofNat 8 (b.toNat % 10)]

/-- The pressed state a key operand names (R240): the latch for 0..15, a draw for a larger index. -/
def keyOperand (s : State) (k : Byte) : Bool :=
  if h : k.toNat < 16 then getKey s ⟨k.toNat, h⟩ else keyOutOfRange s

/-- The state after a key operand is read: a draw is used up exactly for an index above 15 (R240). -/
def keyOperandState (s : State) (k : Byte) : State :=
  if k.toNat < 16 then s else countKeyDraw s

/-- Bit `7 - col` of a sprite byte: bit 7 is the leftmost column (R222). -/
def spriteBit (b : Byte) (col : Nat) : Bool := b.getLsbD (7 - col)

/-- The pixel column `(vx + col) mod 64` (R222, R224). -/
def pixelX (vx : Byte) (col : Nat) : Fin 64 := Fin.ofNat 64 (vx.toNat + col)

/-- The pixel row `(vy + row) mod 32` (R222, R224). -/
def pixelY (vy : Byte) (row : Nat) : Fin 32 := Fin.ofNat 32 (vy.toNat + row)

end Sys2Proof.Machine
end

