-- ==== Sys2Proof/Machine/Alu.lean ====
section
/-! DEFINITION. Register loads and ALU (42_alu.md). Operands are read before any write (R16, R170). -/

namespace Sys2Proof.Machine

/-- LD Vx, kk (R171). -/
def execLdImm (x : RegIx) (kk : Byte) (s : State) : Result := .next (setV s x kk)

/-- ADD Vx, kk (R172): wraps, no flag. -/
def execAddImm (x : RegIx) (kk : Byte) (s : State) : Result := .next (setV s x (getV s x + kk))

/-- LD Vx, Vy (R173). -/
def execLdReg (x y : RegIx) (s : State) : Result := .next (setV s x (getV s y))

/-- OR Vx, Vy (R174): no flag (D25). -/
def execOr (x y : RegIx) (s : State) : Result := .next (setV s x (getV s x ||| getV s y))

/-- AND Vx, Vy (R175): no flag (D25). -/
def execAnd (x y : RegIx) (s : State) : Result := .next (setV s x (getV s x &&& getV s y))

/-- XOR Vx, Vy (R176): no flag (D25). -/
def execXor (x y : RegIx) (s : State) : Result := .next (setV s x (getV s x ^^^ getV s y))

/-- ADD Vx, Vy (R177): VF is the carry, written last. -/
def execAddReg (x y : RegIx) (s : State) : Result :=
  .next (writeResultThenFlag s x (getV s x + getV s y) (carryOut (getV s x) (getV s y)))

/-- SUB Vx, Vy (R178): VF is NOT borrow, written last. -/
def execSub (x y : RegIx) (s : State) : Result :=
  .next (writeResultThenFlag s x (getV s x - getV s y) (notBorrow (getV s x) (getV s y)))

/-- SHR Vx (R179): `y` is ignored (R106, D26); VF is the old bit 0, written last. -/
def execShr (x : RegIx) (s : State) : Result :=
  .next (writeResultThenFlag s x (getV s x >>> 1) (shiftedOutRight (getV s x)))

/-- SUBN Vx, Vy (R180): VF is NOT borrow, written last. -/
def execSubn (x y : RegIx) (s : State) : Result :=
  .next (writeResultThenFlag s x (getV s y - getV s x) (notBorrow (getV s y) (getV s x)))

/-- SHL Vx (R181): `y` is ignored (R106, D26); VF is the old bit 7, written last. -/
def execShl (x : RegIx) (s : State) : Result :=
  .next (writeResultThenFlag s x (getV s x <<< 1) (shiftedOutLeft (getV s x)))

/-- RND Vx, kk (R182): exactly one draw (R184), also for `kk = 0`. -/
def execRnd (x : RegIx) (kk : Byte) (s : State) : Result :=
  .next (setV (countRandom s) x (randomByte s &&& kk))

end Sys2Proof.Machine
end

