-- ==== Sys2Proof/Machine/Control.lean ====
section
/-! DEFINITION. Control transfer and skips (41_control.md). On entry `pc = a + 2` (R132). -/

namespace Sys2Proof.Machine

/-- RET (R152). -/
def execRet (s : State) : Result := .next (popReturn s)

/-- JP nnn (R153). -/
def execJp (nnn : Addr12) (s : State) : Result := .next (setPc s (zextAddr nnn))

/-- CALL nnn (R154): the advanced `pc` is pushed; the jump always happens. -/
def execCall (nnn : Addr12) (s : State) : Result := .next (setPc (pushReturn s s.pc) (zextAddr nnn))

/-- SE Vx, kk (R155). -/
def execSeImm (x : RegIx) (kk : Byte) (s : State) : Result := .next (skipIf (getV s x == kk) s)

/-- SNE Vx, kk (R156). -/
def execSneImm (x : RegIx) (kk : Byte) (s : State) : Result := .next (skipIf (getV s x != kk) s)

/-- SE Vx, Vy (R157). -/
def execSeReg (x y : RegIx) (s : State) : Result := .next (skipIf (getV s x == getV s y) s)

/-- SNE Vx, Vy (R158). -/
def execSneReg (x y : RegIx) (s : State) : Result := .next (skipIf (getV s x != getV s y) s)

/-- JP V0, nnn (R159): always `V[0]`, stored without mask. -/
def execJpV0 (nnn : Addr12) (s : State) : Result :=
  .next (setPc s (zextByte (getV s 0x0#4) + zextAddr nnn))

end Sys2Proof.Machine
end

