-- ==== Sys2Proof/Machine/Display.lean ====
section
/-! DEFINITION. Framebuffer and sprite compositor (44_display.md). -/

namespace Sys2Proof.Machine

/-- `FB[px, py]` (R220). -/
def pixel (fb : Framebuffer) (px : Fin 64) (py : Fin 32) : Bool := fb[py][px]

/-- One pixel inverted: the XOR of a sprite bit of 1. -/
def flipPixel (fb : Framebuffer) (px : Fin 64) (py : Fin 32) : Framebuffer :=
  fb.set py (fb[py].set px (!fb[py][px]))

/-- Every pixel 0. -/
def clearFb : Framebuffer := Vector.replicate 32 (Vector.replicate 64 false)

/-- One sprite bit composed into the framebuffer; the collision flag is set when a lit pixel is
erased and never cleared (R222, R223, D11). -/
def plotBit (bit : Bool) (px : Fin 64) (py : Fin 32) (c : Framebuffer × Bool) : Framebuffer × Bool :=
  if bit then (flipPixel c.1 px py, c.2 || pixel c.1 px py) else c

/-- One sprite row: columns 0 to 7 in ascending order (R222). -/
def plotRow (b vx vy : Byte) (row : Nat) (c : Framebuffer × Bool) : Framebuffer × Bool :=
  (List.range 8).foldl (fun c col => plotBit (spriteBit b col) (pixelX vx col) (pixelY vy row) c) c

/-- The whole sprite: rows 0 to `n - 1` in ascending order, row bytes from `I + row`; the flag starts
at 0 (R222, R223, D12). No row when `n = 0` (R226). -/
def drawSprite (s : State) (vx vy : Byte) (n : Nibble) : Framebuffer × Bool :=
  (List.range n.toNat).foldl (fun c row => plotRow (readByte s (indexed s row)) vx vy row c) (s.fb, false)

/-- CLS (R221). -/
def execCls (s : State) : Result := .next (setFb s clearFb)

/-- DRW Vx, Vy, n (R222): coordinates and `I` read once, VF written once, last (D13). -/
def execDrw (x y : RegIx) (n : Nibble) (s : State) : Result :=
  .next (setV (setFb s (drawSprite s (getV s x) (getV s y) n).1) flagReg
    (flagByte (drawSprite s (getV s x) (getV s y) n).2))

end Sys2Proof.Machine
end

