-- ==== Sys2Proof/Machine/IndexMemory.lean ====
section
/-! DEFINITION. Address register and memory transfers (43_index_memory.md). `I` is never masked, and Fx33, Fx55 and
Fx65 leave it unchanged (R200, D24). -/

namespace Sys2Proof.Machine

/-- LD I, nnn (R201). -/
def execLdI (nnn : Addr12) (s : State) : Result := .next (setI s (zextAddr nnn))

/-- ADD I, Vx (R202): modulo 2^16, no flag. -/
def execAddI (x : RegIx) (s : State) : Result := .next (setI s (s.i + zextByte (getV s x)))

/-- LD F, Vx (R203). -/
def execLdF (x : RegIx) (s : State) : Result := .next (setI s (glyphAddress (getV s x)))

/-- LD B, Vx (R204). -/
def execLdB (x : RegIx) (s : State) : Result :=
  .next (writeBytes s (indexed s 0) (decimalDigits (getV s x)))

/-- LD [I], Vx (R205). -/
def execLdMemVx (x : RegIx) (s : State) : Result :=
  .next (writeBytes s (indexed s 0) (regsUpTo s x))

/-- LD Vx, [I] (R206). -/
def execLdVxMem (x : RegIx) (s : State) : Result := .next (loadRegs s x)

end Sys2Proof.Machine
end

