-- ==== Sys2Proof/Machine/InputTimers.lean ====
section
/-! DEFINITION. Input latch and timer instructions (45_input_timers.md). -/

namespace Sys2Proof.Machine

/-- SKP Vx (R241): the latch level, or a draw for an index above 15 (R240). -/
def execSkp (x : RegIx) (s : State) : Result :=
  .next (skipIf (keyOperand s (getV s x)) (keyOperandState s (getV s x)))

/-- SKNP Vx (R242). -/
def execSknp (x : RegIx) (s : State) : Result :=
  .next (skipIf (!keyOperand s (getV s x)) (keyOperandState s (getV s x)))

/-- LD Vx, DT (R243). -/
def execLdVxDT (x : RegIx) (s : State) : Result := .next (setV s x s.dt)

/-- LD Vx, K (R244): the least pressed key, or `pc` rolled back by 2 modulo 2^16 (D30). -/
def execLdVxK (x : RegIx) (s : State) : Result :=
  match firstKey s with
  | some k => .next (setV s x (BitVec.ofNat 8 k.val))
  | none => .next (setPc s (s.pc - 2#16))

/-- LD DT, Vx (R245). -/
def execLdDTVx (x : RegIx) (s : State) : Result := .next (setDT s (getV s x))

/-- LD ST, Vx (R246). -/
def execLdSTVx (x : RegIx) (s : State) : Result := .next (setST s (getV s x))

end Sys2Proof.Machine
end

