-- ==== Sys2Proof/Machine/Step.lean ====
section
/-! DEFINITION. One step (40_cycle.md R138), and the host's way of placing the next instruction. -/

namespace Sys2Proof.Machine

/-- `step()` (R130, R138): fetch, advance `pc`, decode, execute; an unrecognised word is reported with
its fetch address and does nothing else (R135). -/
def step (s : State) : Host.Outcome State Fault Refusal :=
  match decodeWord (fetchWord s) with
  | some i => exec i (advancePc s)
  | none => .next (reportUnknown (advancePc s) (fetchWord s) s.pc)

/-- The state with a table word stored, high byte first, at the two masked addresses the next fetch
reads. It stands for a program loaded from outside (R292; log entry 13). -/
def State.withFetchWord (s : State) (nbits w : Nat) : State := placeFetchWord s (tableWord nbits w)

end Sys2Proof.Machine
end

