-- ==== Sys2Proof/Machine/HostActions.lean ====
section
/-! DEFINITION. The host-facing actions (60_exceptions.md R270-R276, 70_reset_and_hazards.md R292) and how they
interleave with steps: only between them, in any finite sequence (R275). -/

namespace Sys2Proof.Machine

/-- A timer counted down by one, "clamped at 0" (R270). -/
def countDown (b : Byte) : Byte := if b = 0x00#8 then 0x00#8 else b - 1#8

/-- `tick_timers()` (R270): both timers, nothing else. -/
def tickTimers (s : State) : State := setST (setDT s (countDown s.dt)) (countDown s.st)

/-- `set_key(k, pressed)` (R272); an index outside 0..15 is refused (D29; log entry 20). -/
def setKey (k : Nat) (pressed : Bool) (s : State) : Host.Outcome State Fault Refusal :=
  if h : k < 16 then .next { s with key := s.key.set k pressed } else .refused .keyIndexOutOfRange

/-- `is_key_pressed(k)` (R273): a query, no state change; an index outside 0..15 is refused (X13). -/
def isKeyPressed (k : Nat) (s : State) : Host.Outcome Bool Fault Refusal :=
  if h : k < 16 then .next (getKey s ⟨k, h⟩) else .refused .keyIndexOutOfRange

/-- The framebuffer read port (R274): 2048 values in the order `px + py * 64`. -/
def readFramebuffer (s : State) : Vector Bool 2048 :=
  Vector.ofFn (fun k => pixel s.fb (Fin.ofNat 64 k.val) (Fin.ofNat 32 (k.val / 64)))

/-- Program load (R292): the image verbatim from 0x200 on, nothing else; a longer image is refused. -/
def loadProgram (image : List Byte) (s : State) : Host.Outcome State Fault Refusal :=
  if imageWellFormed image then .next { s with mem := placeBytes s.mem programBase image }
  else .refused .imageTooLong

/-- Where a run is in the boot order (R293). -/
inductive BootPhase where
  | constructed
  | loaded
  | running
  deriving DecidableEq, Repr

/-- One engine as the host drives it: its state and the boot phase, which decides whether a load is
inside the interface (R292). The phase is the host's, not part of the state record (log entry 14). -/
structure Session where
  state : State
  phase : BootPhase
  deriving DecidableEq, Repr

/-- What the host can do between steps (R275, R276). -/
inductive HostEvent where
  | load (image : List Byte)
  | step
  | tick
  | setKey (k : Nat) (pressed : Bool)
  | queryKey (k : Nat)
  | readFramebuffer
  deriving DecidableEq, Repr

/-- The session right after construction (R290). -/
def sessionStart : Session := ⟨State.reset, .constructed⟩

/-- A state-changing action's answer, as a session in a phase. -/
def inPhase (p : BootPhase) : Host.Outcome State Fault Refusal → Host.Outcome Session Fault Refusal
  | .next s => .next ⟨s, p⟩
  | .fault f => .fault f
  | .refused r => .refused r

/-- A query's effect on the session: none, unless it is refused. -/
def afterQuery (ss : Session) : Host.Outcome Bool Fault Refusal → Host.Outcome Session Fault Refusal
  | .next _ => .next ss
  | .fault f => .fault f
  | .refused r => .refused r

/-- One host action (R275). A load is accepted once, before the first step (R292, D19). Ticks, key sets, queries and
framebuffer reads are accepted in every phase, between construction and the load too, and do not end the phase a load may
come in: R293 lists them after the load and R292 bounds the load only by the first step.
DESIGN CHOICE (log entry 26): safe. -/
def hostApply (ss : Session) : HostEvent → Host.Outcome Session Fault Refusal
  | .load image =>
    match ss.phase with
    | .constructed => inPhase .loaded (loadProgram image ss.state)
    | .loaded => .refused .loadNotAllowed
    | .running => .refused .loadNotAllowed
  | .step => inPhase .running (step ss.state)
  | .tick => .next ⟨tickTimers ss.state, ss.phase⟩
  | .setKey k pressed => inPhase ss.phase (setKey k pressed ss.state)
  | .queryKey k => afterQuery ss (isKeyPressed k ss.state)
  | .readFramebuffer => .next ss

/-- A finite sequence of host actions, one at a time, stopping at the first that is refused (R275). -/
def hostRun (ss : Session) : List HostEvent → Host.Outcome Session Fault Refusal
  | [] => .next ss
  | e :: es =>
    match hostApply ss e with
    | .next ss' => hostRun ss' es
    | .fault f => .fault f
    | .refused r => .refused r

end Sys2Proof.Machine
end

