-- ==== Sys2Proof/Safety.lean ====
section
/-! DEFINITION. The terms the statements use: the invariant of the state, the parts of the state and what it means for
one of them to be unchanged, and the sprite mask a draw composes. -/

namespace Sys2Proof.Safety

open Sys2Proof.Machine

/-- The invariant: memory is in canonical form. Every other relation the spec states between fields
(`sp` in [0, 15], pixels 0 or 1, 16 registers, slots and keys) is carried by the fields' types. -/
abbrev MemoryInvariant (s : State) : Prop := Memory.wf s.mem

/-- The parts of the state (R30), and the draw counters. -/
inductive Part where
  | memory | v | i | pc | stack | dt | st | display | key | diag | faulted | rndDraws | keyDraws
  deriving DecidableEq, Repr

/-- A part reads the same in both states. -/
def unchanged (s t : State) : Part → Prop
  | .memory => ∀ a, readByte t a = readByte s a
  | .v => ∀ r, getV t r = getV s r
  | .i => t.i = s.i
  | .pc => t.pc = s.pc
  | .stack => t.sp = s.sp ∧ ∀ j, getStack t j = getStack s j
  | .dt => t.dt = s.dt
  | .st => t.st = s.st
  | .display => ∀ px py, pixel t.fb px py = pixel s.fb px py
  | .key => ∀ k, getKey t k = getKey s k
  | .diag => t.diag = s.diag
  | .faulted => t.faulted = s.faulted
  | .rndDraws => t.rndDraws = s.rndDraws
  | .keyDraws => t.keyDraws = s.keyDraws

/-- The frame of a step from `s` to `t`: every part outside the list is unchanged. -/
def onlyChanges (parts : List Part) (s t : State) : Prop := ∀ p, p ∉ parts → unchanged s t p

/-- Every general register outside the list reads the same. -/
def registersKeptExcept (xs : List RegIx) (s t : State) : Prop := ∀ r, r ∉ xs → getV t r = getV s r

/-- The sprite bit a draw at `(vx, vy)` with `n` rows puts on a pixel (R222, R224): the pixel is in the
sprite's wrapped rectangle and the bit of its row byte is 1. -/
def spriteCovers (s : State) (vx vy : Byte) (n : Nibble) (px : Fin 64) (py : Fin 32) : Bool :=
  let col := (px.val + 256 - vx.toNat) % 64
  let row := (py.val + 256 - vy.toNat) % 32
  decide (col < 8) && (decide (row < n.toNat) && spriteBit (readByte s (indexed s row)) col)

/-- The general registers an instruction may write (R33, R34): its destination `V[x]`, `V[0]`..`V[x]` for
Fx65, and VF for the six flag writers. -/
def mayWriteV : Instr → RegIx → Bool
  | .cls, _ => false
  | .ret, _ => false
  | .jp _, _ => false
  | .call _, _ => false
  | .seImm _ _, _ => false
  | .sneImm _ _, _ => false
  | .seReg _ _, _ => false
  | .ldImm x _, r => r == x
  | .addImm x _, r => r == x
  | .ldReg x _, r => r == x
  | .or x _, r => r == x
  | .and x _, r => r == x
  | .xor x _, r => r == x
  | .addReg x _, r => r == x || r == flagReg
  | .sub x _, r => r == x || r == flagReg
  | .shr x _, r => r == x || r == flagReg
  | .subn x _, r => r == x || r == flagReg
  | .shl x _, r => r == x || r == flagReg
  | .sneReg _ _, _ => false
  | .ldI _, _ => false
  | .jpV0 _, _ => false
  | .rnd x _, r => r == x
  | .drw _ _ _, r => r == flagReg
  | .skp _, _ => false
  | .sknp _, _ => false
  | .ldVxDT x, r => r == x
  | .ldVxK x, r => r == x
  | .ldDTVx _, _ => false
  | .ldSTVx _, _ => false
  | .addI _, _ => false
  | .ldF _, _ => false
  | .ldB _, _ => false
  | .ldMemVx _, _ => false
  | .ldVxMem x, r => decide (r.toNat ≤ x.toNat)

/-- How an instruction may move `pc` (R36): `a` is its own address, `pc'` the value it leaves. -/
def pcMoveAllowed (a pc' : Word) : Instr → Prop
  | .jp nnn => pc' = zextAddr nnn
  | .call nnn => pc' = zextAddr nnn
  | .ret => True
  | .jpV0 _ => True
  | .seImm _ _ => pc' = a + 2#16 ∨ pc' = a + 4#16
  | .sneImm _ _ => pc' = a + 2#16 ∨ pc' = a + 4#16
  | .seReg _ _ => pc' = a + 2#16 ∨ pc' = a + 4#16
  | .sneReg _ _ => pc' = a + 2#16 ∨ pc' = a + 4#16
  | .skp _ => pc' = a + 2#16 ∨ pc' = a + 4#16
  | .sknp _ => pc' = a + 2#16 ∨ pc' = a + 4#16
  | .ldVxK _ => pc' = a + 2#16 ∨ pc' = a
  | .cls | .ldImm _ _ | .addImm _ _ | .ldReg _ _ | .or _ _ | .and _ _ | .xor _ _ => pc' = a + 2#16
  | .addReg _ _ | .sub _ _ | .shr _ _ | .subn _ _ | .shl _ _ | .ldI _ | .rnd _ _ | .drw _ _ _ => pc' = a + 2#16
  | .ldVxDT _ | .ldDTVx _ | .ldSTVx _ | .addI _ | .ldF _ | .ldB _ | .ldMemVx _ | .ldVxMem _ => pc' = a + 2#16

/-- The addresses an instruction stores to, computed exactly, in the state it executes in (R76): three
from `I` for Fx33, `x + 1` from `I` for Fx55, none for any other. -/
def storeAddresses (s : State) : Instr → List Nat
  | .ldB _ => (List.range 3).map (indexed s)
  | .ldMemVx x => (List.range (x.toNat + 1)).map (indexed s)
  | .cls | .ret | .jp _ | .call _ | .seImm _ _ | .sneImm _ _ | .seReg _ _ | .ldImm _ _ | .addImm _ _ => []
  | .ldReg _ _ | .or _ _ | .and _ _ | .xor _ _ | .addReg _ _ | .sub _ _ | .shr _ _ | .subn _ _ => []
  | .shl _ _ | .sneReg _ _ | .ldI _ | .jpV0 _ | .rnd _ _ | .drw _ _ _ | .skp _ | .sknp _ => []
  | .ldVxDT _ | .ldVxK _ | .ldDTVx _ | .ldSTVx _ | .addI _ | .ldF _ | .ldVxMem _ => []

/-- Two states that agree on everything an instruction can read as an operand: all parts but the two
output-only fields `diag` and `faulted` (R30, R46). -/
def sameButOutputs (s t : State) : Prop := { t with diag := s.diag, faulted := s.faulted } = s

/-- Two states that agree on everything but `ST` (R42). -/
def sameButSoundTimer (s t : State) : Prop := { t with st := s.st } = s

end Sys2Proof.Safety
end

