-- ==== Sys2Proof/Certificates/Slice0/Obligations.lean ====
section
/-! DEFINITION. The statements for the provers, in the order of spec/. "On entry" a meaning sees `pc = a + 2` (40_cycle.md R132),
so `s.pc` below is the address after the instruction, except in the statements about `step`. -/

open Sys2Proof Sys2Proof.Machine Sys2Proof.Safety

/-! ## Encoding (30_encoding.md) -/

/-- R105, R110: every instruction, with every operand at every value its field admits, is read back from its own two bytes,
whatever bytes follow. -/
def Obligations.EncodedInstructionDecodesBack : Prop :=
  ∀ (i : Instr) (rest : List Byte),
    decodeWord (encode i) = some i ∧ decode (encodeBytes i ++ rest) = .instr i rest

/-- R105, R106: a word that decodes is the encoding of what it decodes to, so decoding drops no bit, the ignored `y` of SHR
and SHL included. -/
def Obligations.DecodedWordEncodesBack : Prop :=
  ∀ (w : Word) (i : Instr), decodeWord w = some i → encode i = w

/-- R105, R107, R110: the two-level lookup accepts exactly the words of the 34 mask/match rows, and answers an instruction of
the row matched. -/
def Obligations.RecognisedWordsAreTheRowsOfTheMap : Prop :=
  (∀ w : Word, (decodeWord w).isSome = opcodeTable.any (rowMatches w)) ∧
  ∀ (w : Word) (i : Instr), decodeWord w = some i → rowMatches w (rowOf i) = true

/-- R105: "no 16-bit word matches two rows". -/
def Obligations.OpcodeRowsAreDisjoint : Prop :=
  opcodeTable.length = 34 ∧
  ∀ w : Word, ∀ r ∈ opcodeTable, ∀ q ∈ opcodeTable, rowMatches w r = true → rowMatches w q = true → r = q

/-- R105: words written out from the encodings, one or two of each family, and words of each unrecognised group (R107). -/
def Obligations.WrittenOutWordsDecode : Prop :=
  decodeWord 0x00E0#16 = some .cls ∧ decodeWord 0x00EE#16 = some .ret ∧
  decodeWord 0x2ABC#16 = some (.call 0xABC#12) ∧ decodeWord 0x5120#16 = some (.seReg 0x1#4 0x2#4) ∧
  decodeWord 0x6AC8#16 = some (.ldImm 0xA#4 0xC8#8) ∧ decodeWord 0x8F1E#16 = some (.shl 0xF#4 0x1#4) ∧
  decodeWord 0xD125#16 = some (.drw 0x1#4 0x2#4 0x5#4) ∧ decodeWord 0xE3A1#16 = some (.sknp 0x3#4) ∧
  decodeWord 0xF733#16 = some (.ldB 0x7#4) ∧ decodeWord 0xFA65#16 = some (.ldVxMem 0xA#4) ∧
  decodeWord 0x0123#16 = none ∧ decodeWord 0x5121#16 = none ∧ decodeWord 0x8128#16 = none ∧
  decodeWord 0x9121#16 = none ∧ decodeWord 0xE100#16 = none ∧ decodeWord 0xF1FF#16 = none

/-! ## The step (40_cycle.md) -/

/-- R131, R74: the opcode is the byte at `pc` as high byte and the byte at `pc + 1` as low byte, each address masked to 12 bits
on its own (the mask is the spec's own decision D2, log entry 9). -/
def Obligations.FetchIsBigEndianAndMasked : Prop :=
  ∀ s : State, (fetchWord s).toNat =
    (memGet s.mem (s.pc.toNat % 4096)).toNat * 256 + (memGet s.mem ((s.pc.toNat + 1) % 4096)).toNat

/-- R132, R134, R138: when the word at `pc` decodes to an instruction, the step is the execution of it in the state whose `pc`
alone has advanced by 2, modulo 2^16 (D3, log entry 10). -/
def Obligations.StepRunsTheDecodedInstruction : Prop :=
  ∀ (s : State) (i : Instr), decodeWord (fetchWord s) = some i →
    step s = exec i (advancePc s) ∧ (advancePc s).pc = s.pc + 2#16 ∧ onlyChanges [.pc] s (advancePc s)

/-- R135, R262: a word of the unrecognised space appends one report, the word and its fetch address (the record's fields are
the spec's own choice D17, log entry 16), leaves `pc` at `a + 2` and changes nothing else. -/
def Obligations.UnrecognisedWordIsAReportedNoOp : Prop :=
  ∀ s : State, decodeWord (fetchWord s) = none →
    ∃ t, step s = .next t ∧ t.pc = s.pc + 2#16 ∧ t.diag = s.diag ++ [⟨fetchWord s, s.pc⟩] ∧
      onlyChanges [.pc, .diag] s t

/-- R136: for every state the step completes and yields a next state. -/
def Obligations.EveryStepYieldsANextState : Prop :=
  ∀ s : State, ∃ t, step s = .next t

/-- R137: the five flag writers end with the flag in VF, computed from the operands read at the start, also when `x = 15`; with
`x` another register the result, computed from the same operands (the old VF when `y = 15`), stands in `V[x]`; and DRW writes no
register but VF. That the shifts read `V[x]` and ignore `y` is the spec's own reading D26 (log entry 18, DESIGN CHOICE). -/
def Obligations.FlagIsWrittenLast : Prop :=
  ∀ (s : State) (x y : RegIx),
    (∃ t, exec (.addReg x y) s = .next t ∧
      getV t 15#4 = (if 255 < (getV s x).toNat + (getV s y).toNat then 1#8 else 0#8) ∧
      (x ≠ 15#4 → getV t x = getV s x + getV s y)) ∧
    (∃ t, exec (.sub x y) s = .next t ∧
      getV t 15#4 = (if (getV s y).toNat ≤ (getV s x).toNat then 1#8 else 0#8) ∧
      (x ≠ 15#4 → getV t x = getV s x - getV s y)) ∧
    (∃ t, exec (.shr x y) s = .next t ∧ getV t 15#4 = getV s x &&& 1#8 ∧
      (x ≠ 15#4 → getV t x = getV s x >>> 1)) ∧
    (∃ t, exec (.subn x y) s = .next t ∧
      getV t 15#4 = (if (getV s x).toNat ≤ (getV s y).toNat then 1#8 else 0#8) ∧
      (x ≠ 15#4 → getV t x = getV s y - getV s x)) ∧
    (∃ t, exec (.shl x y) s = .next t ∧ getV t 15#4 = getV s x >>> 7 ∧
      (x ≠ 15#4 → getV t x = getV s x <<< 1)) ∧
    ∀ n, ∃ t, exec (.drw x y n) s = .next t ∧ registersKeptExcept [15#4] s t ∧ onlyChanges [.v, .display] s t

/-! ## Control transfer and skips (41_control.md) -/

/-- R153: JP nnn sets `pc` to the zero-extended address and changes nothing else. -/
def Obligations.JumpLoadsTheAddress : Prop :=
  ∀ (s : State) (nnn : Addr12), decodeWord (formatA 0x1#4 nnn) = some (.jp nnn) ∧
    ∃ t, exec (.jp nnn) s = .next t ∧ t.pc.toNat = nnn.toNat ∧ onlyChanges [.pc] s t

/-- R155, R156: SE Vx, kk adds 2 to `pc` when the register equals the byte, SNE Vx, kk when it differs; no flag, nothing else. -/
def Obligations.SkipsOnAByte : Prop :=
  ∀ (s : State) (x : RegIx) (kk : Byte),
    (decodeWord (formatXK 0x3#4 x kk) = some (.seImm x kk) ∧
      ∃ t, exec (.seImm x kk) s = .next t ∧ onlyChanges [.pc] s t ∧
        t.pc = if getV s x = kk then s.pc + 2#16 else s.pc) ∧
    (decodeWord (formatXK 0x4#4 x kk) = some (.sneImm x kk) ∧
      ∃ t, exec (.sneImm x kk) s = .next t ∧ onlyChanges [.pc] s t ∧
        t.pc = if getV s x = kk then s.pc else s.pc + 2#16)

/-- R157, R158: SE Vx, Vy adds 2 to `pc` when the registers are equal, SNE Vx, Vy when they differ; `n` other than 0 is
unrecognised. -/
def Obligations.SkipsOnTwoRegisters : Prop :=
  ∀ (s : State) (x y : RegIx),
    (decodeWord (formatXY 0x5#4 x y 0x0#4) = some (.seReg x y) ∧
      (∀ n, n ≠ 0x0#4 → decodeWord (formatXY 0x5#4 x y n) = none) ∧
      ∃ t, exec (.seReg x y) s = .next t ∧ onlyChanges [.pc] s t ∧
        t.pc = if getV s x = getV s y then s.pc + 2#16 else s.pc) ∧
    (decodeWord (formatXY 0x9#4 x y 0x0#4) = some (.sneReg x y) ∧
      (∀ n, n ≠ 0x0#4 → decodeWord (formatXY 0x9#4 x y n) = none) ∧
      ∃ t, exec (.sneReg x y) s = .next t ∧ onlyChanges [.pc] s t ∧
        t.pc = if getV s x = getV s y then s.pc else s.pc + 2#16)

/-- R152: RET takes `pc` from `stack[sp]` and decrements `sp`; at `sp = 0` it follows `STACK_UNDERFLOW`, which the spec leaves
open with a default (D10, log entry 4); no slot is written. -/
def Obligations.ReturnPopsTheStack : Prop :=
  ∀ s : State, ∃ t, exec .ret s = .next t ∧ onlyChanges [.pc, .stack] s t ∧
    (∀ j, getStack t j = getStack s j) ∧
    (s.sp ≠ 0 → t.pc = getStack s s.sp ∧ t.sp.val + 1 = s.sp.val) ∧
    (s.sp = 0 → t.sp = 0 ∧
      t.pc = match underflowMode with
        | .readSlot0 => getStack s 0
        | .dropPop => s.pc)

/-- R154: CALL increments `sp`, stores the advanced `pc` there and jumps; at `sp = 15` it follows `STACK_OVERFLOW`, which the
spec leaves open with a default (D9, log entry 3), and jumps all the same; no other slot is written. -/
def Obligations.CallPushesTheAdvancedPc : Prop :=
  ∀ (s : State) (nnn : Addr12), ∃ t, exec (.call nnn) s = .next t ∧ onlyChanges [.pc, .stack] s t ∧
    t.pc.toNat = nnn.toNat ∧
    (s.sp.val < 15 → t.sp.val = s.sp.val + 1 ∧ getStack t t.sp = s.pc ∧
      ∀ j, j ≠ t.sp → getStack t j = getStack s j) ∧
    (s.sp.val = 15 → t.sp = s.sp ∧ (∀ j, j ≠ 15 → getStack t j = getStack s j) ∧
      getStack t 15 = match overflowMode with
        | .overwriteTop => s.pc
        | .dropPush => getStack s 15)

/-- R159: JP V0, nnn sets `pc` to the exact sum of `V[0]` and the address, which never wraps and is not masked (D3, log
entry 10). -/
def Obligations.JumpWithOffsetAddsRegisterZero : Prop :=
  ∀ (s : State) (nnn : Addr12), ∃ t, exec (.jpV0 nnn) s = .next t ∧
    t.pc.toNat = (getV s 0x0#4).toNat + nnn.toNat ∧ onlyChanges [.pc] s t

/-- R152, R154 (the source's call example W4): below 15 calls, a CALL and the matching RET come back to the address after the
CALL with the stack pointer and every other slot as before, whichever way the two parameters are set. -/
def Obligations.CallThenReturnComesBack : Prop :=
  ∀ (s : State) (nnn : Addr12), s.sp.val < 15 →
    ∃ t u, exec (.call nnn) s = .next t ∧ exec .ret t = .next u ∧ u.pc = s.pc ∧ u.sp = s.sp ∧
      (∀ j : Fin 16, j.val ≠ s.sp.val + 1 → getStack u j = getStack s j) ∧ onlyChanges [.stack] s u

/-! ## Register loads and ALU (42_alu.md) -/

/-- R171, R173: LD Vx, kk loads the byte and LD Vx, Vy copies the register; no flag, nothing else. -/
def Obligations.LoadsOfARegister : Prop :=
  ∀ (s : State) (x y : RegIx) (kk : Byte),
    (decodeWord (formatXK 0x6#4 x kk) = some (.ldImm x kk) ∧
      ∃ t, exec (.ldImm x kk) s = .next t ∧ getV t x = kk ∧ registersKeptExcept [x] s t ∧ onlyChanges [.v] s t) ∧
    (decodeWord (formatXY 0x8#4 x y 0x0#4) = some (.ldReg x y) ∧
      ∃ t, exec (.ldReg x y) s = .next t ∧ getV t x = getV s y ∧ registersKeptExcept [x] s t ∧ onlyChanges [.v] s t)

/-- R172: ADD Vx, kk adds modulo 256 and writes no flag, VF included unless it is the destination. -/
def Obligations.AddImmediateWrapsWithoutFlag : Prop :=
  ∀ (s : State) (x : RegIx) (kk : Byte), decodeWord (formatXK 0x7#4 x kk) = some (.addImm x kk) ∧
    ∃ t, exec (.addImm x kk) s = .next t ∧ (getV t x).toNat = ((getV s x).toNat + kk.toNat) % 256 ∧
      registersKeptExcept [x] s t ∧ onlyChanges [.v] s t

/-- R174, R175, R176: OR, AND and XOR act bit by bit; VF keeps its value unless it is the destination (the spec's own reading
D25, log entry 18). -/
def Obligations.BitwiseOperationsWriteNoFlag : Prop :=
  ∀ (s : State) (x y : RegIx),
    (∃ t, exec (.or x y) s = .next t ∧ registersKeptExcept [x] s t ∧ onlyChanges [.v] s t ∧
      ∀ k, (getV t x).getLsbD k = ((getV s x).getLsbD k || (getV s y).getLsbD k)) ∧
    (∃ t, exec (.and x y) s = .next t ∧ registersKeptExcept [x] s t ∧ onlyChanges [.v] s t ∧
      ∀ k, (getV t x).getLsbD k = ((getV s x).getLsbD k && (getV s y).getLsbD k)) ∧
    (∃ t, exec (.xor x y) s = .next t ∧ registersKeptExcept [x] s t ∧ onlyChanges [.v] s t ∧
      ∀ k, (getV t x).getLsbD k = ((getV s x).getLsbD k != (getV s y).getLsbD k))

/-- R177: ADD Vx, Vy leaves the low byte of the exact sum in `V[x]` (unless VF is the destination, which ends as the carry) and
the carry in VF. -/
def Obligations.AddSetsCarry : Prop :=
  ∀ (s : State) (x y : RegIx), decodeWord (formatXY 0x8#4 x y 0x4#4) = some (.addReg x y) ∧
    ∃ t, exec (.addReg x y) s = .next t ∧
      (x ≠ 15#4 → (getV t x).toNat = ((getV s x).toNat + (getV s y).toNat) % 256) ∧
      getV t 15#4 = (if 255 < (getV s x).toNat + (getV s y).toNat then 1#8 else 0#8) ∧
      registersKeptExcept [x, 15#4] s t ∧ onlyChanges [.v] s t

/-- R178, R180: SUB leaves `V[x] - V[y]` and SUBN `V[y] - V[x]` modulo 256 in `V[x]` (unless VF is the destination, which ends
as the flag), and VF is 1 exactly when no borrow occurs, equal operands included. -/
def Obligations.SubtractionsSetNotBorrow : Prop :=
  ∀ (s : State) (x y : RegIx),
    (decodeWord (formatXY 0x8#4 x y 0x5#4) = some (.sub x y) ∧
      ∃ t, exec (.sub x y) s = .next t ∧
        (x ≠ 15#4 → (getV t x).toNat = ((getV s x).toNat + 256 - (getV s y).toNat) % 256) ∧
        getV t 15#4 = (if (getV s y).toNat ≤ (getV s x).toNat then 1#8 else 0#8) ∧
        registersKeptExcept [x, 15#4] s t ∧ onlyChanges [.v] s t) ∧
    (decodeWord (formatXY 0x8#4 x y 0x7#4) = some (.subn x y) ∧
      ∃ t, exec (.subn x y) s = .next t ∧
        (x ≠ 15#4 → (getV t x).toNat = ((getV s y).toNat + 256 - (getV s x).toNat) % 256) ∧
        getV t 15#4 = (if (getV s x).toNat ≤ (getV s y).toNat then 1#8 else 0#8) ∧
        registersKeptExcept [x, 15#4] s t ∧ onlyChanges [.v] s t)

/-- R179, R181: SHR and SHL shift `V[x]` by one (unless VF is the destination, which ends as the flag), and VF is the bit shifted
out. That `y` has no effect is the spec's own reading D26 (log entry 18, DESIGN CHOICE). -/
def Obligations.ShiftsSetTheBitShiftedOut : Prop :=
  ∀ (s : State) (x y : RegIx),
    (decodeWord (formatXY 0x8#4 x y 0x6#4) = some (.shr x y) ∧
      ∃ t, exec (.shr x y) s = .next t ∧ (x ≠ 15#4 → (getV t x).toNat = (getV s x).toNat / 2) ∧
        (getV t 15#4).toNat = (getV s x).toNat % 2 ∧
        registersKeptExcept [x, 15#4] s t ∧ onlyChanges [.v] s t) ∧
    (decodeWord (formatXY 0x8#4 x y 0xE#4) = some (.shl x y) ∧
      ∃ t, exec (.shl x y) s = .next t ∧ (x ≠ 15#4 → (getV t x).toNat = (getV s x).toNat * 2 % 256) ∧
        (getV t 15#4).toNat = (getV s x).toNat / 128 ∧
        registersKeptExcept [x, 15#4] s t ∧ onlyChanges [.v] s t)

/-- R182, R184: RND leaves the drawn byte and `kk` in `V[x]` and draws exactly once. The drawn byte is a free value (D15, log
entry 6): the statement holds for every sequence of draws. -/
def Obligations.RandomByteIsMasked : Prop :=
  ∀ (s : State) (x : RegIx) (kk : Byte), ∃ t, exec (.rnd x kk) s = .next t ∧
    getV t x = Config.randomByte s.rndDraws &&& kk ∧ t.rndDraws = s.rndDraws + 1 ∧
    registersKeptExcept [x] s t ∧ onlyChanges [.v, .rndDraws] s t

/-- R184, R240: "Each execution of Cxkk draws exactly once, and nothing else draws"; a key draw happens only in SKP or SKNP with
`V[x] > 15` (D14, D15; log entries 6, 7). -/
def Obligations.OnlyRandomAndKeySkipsDraw : Prop :=
  ∀ s t : State, step s = .next t →
    (t.rndDraws ≠ s.rndDraws → ∃ x kk, decodeWord (fetchWord s) = some (.rnd x kk)) ∧
    (t.keyDraws ≠ s.keyDraws → ∃ x, 15 < (getV s x).toNat ∧
      (decodeWord (fetchWord s) = some (.skp x) ∨ decodeWord (fetchWord s) = some (.sknp x)))

/-! ## Address register and memory transfers (43_index_memory.md) -/

/-- R201: LD I, nnn sets `I` to the zero-extended address and changes nothing else. -/
def Obligations.LoadAddressRegister : Prop :=
  ∀ (s : State) (nnn : Addr12), decodeWord (formatA 0xA#4 nnn) = some (.ldI nnn) ∧
    ∃ t, exec (.ldI nnn) s = .next t ∧ t.i.toNat = nnn.toNat ∧ onlyChanges [.i] s t

/-- R202: ADD I, Vx adds the register to `I` modulo 2^16 and writes no flag. That `I` keeps 16 bits and is never masked on write is
the spec's own choice D5 (log entry 18, DESIGN CHOICE). -/
def Obligations.AddToAddressRegister : Prop :=
  ∀ (s : State) (x : RegIx), decodeWord (formatXK 0xF#4 x 0x1E#8) = some (.addI x) ∧
    ∃ t, exec (.addI x) s = .next t ∧ t.i.toNat = (s.i.toNat + (getV s x).toNat) % 65536 ∧ onlyChanges [.i] s t

/-- R203: LD F, Vx points `I` at `FONT_BASE + 5 * V[x]`, the whole register; the sum never wraps, since `FONT_BASE + 80 <= 0x200`.
`FONT_BASE` is the spec's open parameter (D7, log entry 1): the statement holds for every value. -/
def Obligations.PointAtGlyph : Prop :=
  ∀ (s : State) (x : RegIx), ∃ t, exec (.ldF x) s = .next t ∧
    t.i.toNat = fontBase + 5 * (getV s x).toNat ∧ fontBase + 80 ≤ 0x200 ∧ onlyChanges [.i] s t

/-- R204: LD B, Vx stores hundreds, tens and units at `I`, `I + 1` and `I + 2`, each address masked (D2, log entry 9), and no
other byte; `I` keeps its value (the spec's own reading D24, log entry 18); `faulted` follows the open parameter `GLYPH_WRITE`
(D16, log entry 5). -/
def Obligations.StoreDecimalDigits : Prop :=
  ∀ (s : State) (x : RegIx), ∃ t, exec (.ldB x) s = .next t ∧
    (readByte t (indexed s 0)).toNat = (getV s x).toNat / 100 ∧
    (readByte t (indexed s 1)).toNat = (getV s x).toNat / 10 % 10 ∧
    (readByte t (indexed s 2)).toNat = (getV s x).toNat % 10 ∧
    (∀ a, (∀ k < 3, effective a ≠ effective (indexed s k)) → readByte t a = readByte s a) ∧
    t.faulted = (s.faulted || (marksGlyphWrite (indexed s 0) || marksGlyphWrite (indexed s 1) ||
      marksGlyphWrite (indexed s 2))) ∧
    onlyChanges [.memory, .faulted] s t

/-- R205: LD [I], Vx stores `V[0]`..`V[x]`, `x` included, at `I`.., each address masked (D2, log entry 9), and no other byte; `I`
keeps its value (the spec's own reading D24, log entry 18); `faulted` follows `GLYPH_WRITE` (D16, log entry 5). -/
def Obligations.StoreRegisters : Prop :=
  ∀ (s : State) (x : RegIx), ∃ t, exec (.ldMemVx x) s = .next t ∧
    (∀ r : RegIx, r.toNat ≤ x.toNat → readByte t (indexed s r.toNat) = getV s r) ∧
    (∀ a, (∀ k ≤ x.toNat, effective a ≠ effective (indexed s k)) → readByte t a = readByte s a) ∧
    t.faulted = (s.faulted || (List.range (x.toNat + 1)).any (fun k => marksGlyphWrite (indexed s k))) ∧
    onlyChanges [.memory, .faulted] s t

/-- R206: LD Vx, [I] loads `V[0]`..`V[x]`, `x` included, from `I`.., each address masked (D2, log entry 9); memory and `I` keep
their values (D24, log entry 18), and so does every register above `x`. -/
def Obligations.LoadRegisters : Prop :=
  ∀ (s : State) (x : RegIx), ∃ t, exec (.ldVxMem x) s = .next t ∧
    (∀ r : RegIx, r.toNat ≤ x.toNat → getV t r = readByte s (indexed s r.toNat)) ∧
    (∀ r : RegIx, x.toNat < r.toNat → getV t r = getV s r) ∧ onlyChanges [.v] s t

/-- R205, R206: registers stored by Fx55 are loaded back by Fx65 from any later state with the same memory and `I`, wherever in
memory they lie and across the wrap at 0xFFF (D2, D24; log entries 9, 18). -/
def Obligations.StoreThenLoadRegistersRestores : Prop :=
  ∀ (s : State) (x : RegIx), ∃ t, exec (.ldMemVx x) s = .next t ∧
    ∀ u : State, u.mem = t.mem → u.i = s.i → ∃ w, exec (.ldVxMem x) u = .next w ∧
      ∀ r : RegIx, r.toNat ≤ x.toNat → getV w r = getV s r

/-! ## Framebuffer and sprite compositor (44_display.md) -/

/-- R221: CLS sets every pixel to 0 and changes nothing else, VF included. -/
def Obligations.ClearDisplay : Prop :=
  ∀ s : State, decodeWord 0x00E0#16 = some .cls ∧
    ∃ t, exec .cls s = .next t ∧ (∀ px py, pixel t.fb px py = false) ∧ onlyChanges [.display] s t

/-- R222 to R226: DRW is, pixel by pixel, the XOR of the framebuffer with the sprite's wrapped mask, and VF is 1 exactly when a
sprite bit of 1 meets a lit pixel, 0 otherwise, also for `n = 0`; coordinates and `I` are read before any write (the spec's own
choices D11, D12, D13, log entry 15; the address mask is D2, log entry 9); no other register, no memory and not `I` change. -/
def Obligations.DrawXorsTheSpriteMask : Prop :=
  ∀ (s : State) (x y : RegIx) (n : Nibble), ∃ t, exec (.drw x y n) s = .next t ∧
    (∀ px py, pixel t.fb px py =
      (pixel s.fb px py != spriteCovers s (getV s x) (getV s y) n px py)) ∧
    ((∃ px py, pixel s.fb px py = true ∧ spriteCovers s (getV s x) (getV s y) n px py = true) →
      getV t 15#4 = 1#8) ∧
    ((∀ px py, pixel s.fb px py = true → spriteCovers s (getV s x) (getV s y) n px py = false) →
      getV t 15#4 = 0#8) ∧
    registersKeptExcept [15#4] s t ∧ onlyChanges [.v, .display] s t

/-- R222, R223 (the source's properties W6 and W7): on a cleared framebuffer a draw leaves VF = 0; and the same sprite drawn
twice at the same place, with coordinates not in VF, restores every pixel (D11, D12, D13; log entry 15). -/
def Obligations.DrawTwiceErases : Prop :=
  (∀ (s : State) (x y : RegIx) (n : Nibble), (∀ px py, pixel s.fb px py = false) →
    ∃ t, exec (.drw x y n) s = .next t ∧ getV t 15#4 = 0#8) ∧
  ∀ (s : State) (x y : RegIx) (n : Nibble), x ≠ 15#4 → y ≠ 15#4 →
    ∃ t u, exec (.drw x y n) s = .next t ∧ exec (.drw x y n) t = .next u ∧
      ∀ px py, pixel u.fb px py = pixel s.fb px py

/-! ## Input latch and timers (45_input_timers.md) -/

/-- R240, R241, R242: SKP skips when the key is pressed and SKNP when it is not; an index above 15 takes a fresh free Boolean
(the spec's own choice D14, log entry 7), for which both outcomes stay possible. -/
def Obligations.KeySkips : Prop :=
  ∀ (s : State) (x : RegIx),
    (∃ t, exec (.skp x) s = .next t ∧ onlyChanges [.pc, .keyDraws] s t ∧
      (∀ h : (getV s x).toNat < 16, t.keyDraws = s.keyDraws ∧
        t.pc = if getKey s ⟨(getV s x).toNat, h⟩ then s.pc + 2#16 else s.pc) ∧
      (15 < (getV s x).toNat → t.keyDraws = s.keyDraws + 1 ∧
        t.pc = if Config.keyOutOfRange s.keyDraws then s.pc + 2#16 else s.pc)) ∧
    (∃ t, exec (.sknp x) s = .next t ∧ onlyChanges [.pc, .keyDraws] s t ∧
      (∀ h : (getV s x).toNat < 16, t.keyDraws = s.keyDraws ∧
        t.pc = if getKey s ⟨(getV s x).toNat, h⟩ then s.pc else s.pc + 2#16) ∧
      (15 < (getV s x).toNat → t.keyDraws = s.keyDraws + 1 ∧
        t.pc = if Config.keyOutOfRange s.keyDraws then s.pc else s.pc + 2#16))

/-- R243, R245, R246: LD Vx, DT reads the delay timer; LD DT, Vx and LD ST, Vx write the two timers, which
the next tick decrements if nonzero; nothing else. -/
def Obligations.TimerReadAndWrites : Prop :=
  ∀ (s : State) (x : RegIx),
    (decodeWord (formatXK 0xF#4 x 0x07#8) = some (.ldVxDT x) ∧
      ∃ t, exec (.ldVxDT x) s = .next t ∧ getV t x = s.dt ∧ registersKeptExcept [x] s t ∧ onlyChanges [.v] s t) ∧
    (decodeWord (formatXK 0xF#4 x 0x15#8) = some (.ldDTVx x) ∧
      ∃ t, exec (.ldDTVx x) s = .next t ∧ t.dt = getV s x ∧ onlyChanges [.dt] s t ∧
        (tickTimers t).dt.toNat = (getV s x).toNat - 1) ∧
    (decodeWord (formatXK 0xF#4 x 0x18#8) = some (.ldSTVx x) ∧
      ∃ t, exec (.ldSTVx x) s = .next t ∧ t.st = getV s x ∧ onlyChanges [.st] s t ∧
        (tickTimers t).st.toNat = (getV s x).toNat - 1)

/-- R244: LD Vx, K takes the least pressed key; with none pressed it rolls `pc` back by 2 modulo 2^16 (the spec's own choice D30,
log entry 17) and changes nothing else. -/
def Obligations.WaitForKey : Prop :=
  ∀ (s : State) (x : RegIx), ∃ t, exec (.ldVxK x) s = .next t ∧
    ((∀ k, getKey s k = false) → t.pc = s.pc - 2#16 ∧ onlyChanges [.pc] s t) ∧
    (∀ k0 : Fin 16, getKey s k0 = true → (∀ k, k < k0 → getKey s k = false) →
      (getV t x).toNat = k0.val ∧ registersKeptExcept [x] s t ∧ onlyChanges [.v] s t)

/-- R295, R297: a step on LD Vx, K with no key pressed (D30), and a step on a jump to its own address (the spec's end of a run,
D20), leave the whole state as it is. -/
def Obligations.WaitAndSelfJumpLeaveTheStateAlone : Prop :=
  (∀ (s : State) (x : RegIx), decodeWord (fetchWord s) = some (.ldVxK x) → (∀ k, getKey s k = false) →
    step s = .next s) ∧
  ∀ (s : State) (nnn : Addr12), fetchWord s = formatA 0x1#4 nnn → s.pc.toNat = nnn.toNat → step s = .next s

/-! ## Rules about every instruction (10_state.md, 20_memory.md) -/

/-- R34: "The `V` registers are written by these instructions and no others": a register that a step changes is one its
instruction may write. -/
def Obligations.OnlyTheListedInstructionsWriteV : Prop :=
  ∀ (s t : State) (r : RegIx), step s = .next t → getV t r ≠ getV s r →
    ∃ i, decodeWord (fetchWord s) = some i ∧ mayWriteV i r = true

/-- R35: `I` is written by Annn, Fx1E and Fx29, and by nothing else. -/
def Obligations.OnlyThreeInstructionsWriteI : Prop :=
  ∀ s t : State, step s = .next t → t.i ≠ s.i →
    (∃ nnn, decodeWord (fetchWord s) = some (.ldI nnn)) ∨ (∃ x, decodeWord (fetchWord s) = some (.addI x)) ∨
      ∃ x, decodeWord (fetchWord s) = some (.ldF x)

/-- R36, R139: how a step moves `pc`: by 2, by 4 for a taken skip, not at all for an LD Vx, K that waits, and to a target for the
four transfers (whose targets R152 to R159 give). -/
def Obligations.PcMovesOnlyAsListed : Prop :=
  ∀ (s t : State) (i : Instr), decodeWord (fetchWord s) = some i → step s = .next t →
    pcMoveAllowed s.pc t.pc i

/-- R38, R39, R40: only CALL writes a stack slot and never `stack[0]`; only CALL and RET change `sp`, by at most one. -/
def Obligations.OnlyCallAndReturnTouchTheStack : Prop :=
  ∀ s t : State, step s = .next t →
    getStack t 0 = getStack s 0 ∧
    (∀ j, getStack t j ≠ getStack s j → ∃ nnn, decodeWord (fetchWord s) = some (.call nnn)) ∧
    (s.sp.val < t.sp.val → t.sp.val = s.sp.val + 1 ∧ ∃ nnn, decodeWord (fetchWord s) = some (.call nnn)) ∧
    (t.sp.val < s.sp.val → t.sp.val + 1 = s.sp.val ∧ decodeWord (fetchWord s) = some .ret)

/-- R41, R42, R43, R44: a step changes DT only in Fx15, ST only in Fx18, a pixel only in 00E0 or Dxyn, and the input latch
never. -/
def Obligations.TimersDisplayAndLatchWriters : Prop :=
  ∀ s t : State, step s = .next t →
    (t.dt ≠ s.dt → ∃ x, decodeWord (fetchWord s) = some (.ldDTVx x)) ∧
    (t.st ≠ s.st → ∃ x, decodeWord (fetchWord s) = some (.ldSTVx x)) ∧
    (∀ px py, pixel t.fb px py ≠ pixel s.fb px py →
      decodeWord (fetchWord s) = some .cls ∨ ∃ x y n, decodeWord (fetchWord s) = some (.drw x y n)) ∧
    ∀ k, getKey t k = getKey s k

/-- R76, R72: a byte of memory that a step changes lies at one of the masked addresses its instruction stores to, three for Fx33
and `x + 1` for Fx55; no other instruction touches memory. -/
def Obligations.OnlyStoresChangeMemory : Prop :=
  ∀ (s t : State) (a : Nat), step s = .next t → readByte t a ≠ readByte s a →
    ∃ i, decodeWord (fetchWord s) = some i ∧ ∃ b ∈ storeAddresses s i, effective b = effective a

/-- R78: `faulted` is sticky, and a step changes a glyph byte only where `GLYPH_WRITE` is `PERFORM` or the mark is set: a run that
ends with `faulted = false` has its glyphs intact under `FAULT` (the parameter is open, D16, log entry 5). -/
def Obligations.GlyphWritesLeaveAMark : Prop :=
  ∀ s t : State, step s = .next t →
    (s.faulted = true → t.faulted = true) ∧
    ∀ k < 80, readByte t (fontBase + k) = readByte s (fontBase + k) ∨ glyphWriteMode = .perform ∨
      t.faulted = true

/-- R30, R46, R262: `diag` and `faulted` feed nothing back: two states that differ only in them step to states that differ only
in them. -/
def Obligations.OutputsFeedNothingBack : Prop :=
  ∀ s s' t : State, sameButOutputs s s' → step s = .next t → ∃ t', step s' = .next t' ∧ sameButOutputs t t'

/-- R42, R46: no instruction reads ST: two states that differ only in ST step to states that differ at most in ST. -/
def Obligations.SoundTimerIsNeverRead : Prop :=
  ∀ s s' t : State, sameButSoundTimer s s' → step s = .next t →
    ∃ t', step s' = .next t' ∧ sameButSoundTimer t t'

/-! ## Invariant and reset (10_state.md R47, 70_reset_and_hazards.md) -/

/-- R70, R72: from every state whose memory is in canonical form, no cell outside the 4096 bytes, every step leaves memory so. -/
def Obligations.StepKeepsTheMemoryInvariant : Prop :=
  ∀ s t : State, MemoryInvariant s → step s = .next t → MemoryInvariant t

/-- R290: the invariant holds after construction, and still when the next instruction is placed. -/
def Obligations.ResetMeetsTheMemoryInvariant : Prop :=
  MemoryInvariant State.reset ∧ ∀ nbits w, MemoryInvariant (State.reset.withFetchWord nbits w)

/-- R47, R291: after construction `pc` is 0x200 and the glyph table lies at `FONT_BASE` (open, D7, D8; log entries 1, 2); every
other field and byte is 0, false or empty (the spec's own choice D6, log entry 8). -/
def Obligations.ResetValues : Prop :=
  State.reset.pc = 0x0200#16 ∧ (∀ r, getV State.reset r = 0#8) ∧ State.reset.i = 0#16 ∧ State.reset.sp = 0 ∧
  (∀ j, getStack State.reset j = 0#16) ∧ State.reset.dt = 0#8 ∧ State.reset.st = 0#8 ∧
  (∀ px py, pixel State.reset.fb px py = false) ∧ (∀ k, getKey State.reset k = false) ∧
  State.reset.diag = [] ∧ State.reset.faulted = false ∧
  (∀ k < 80, readByte State.reset (fontBase + k) = Config.fontGlyphs.getD k 0#8) ∧
  ∀ a < 4096, (a < fontBase ∨ fontBase + 80 ≤ a) → readByte State.reset a = 0#8

/-! ## Host actions (60_exceptions.md, 70_reset_and_hazards.md) -/

/-- R270: a timer tick decrements each timer by 1 if it is nonzero and touches no other state. -/
def Obligations.TickCountsBothTimersDown : Prop :=
  ∀ s : State,
    (tickTimers s).dt.toNat = (if 0 < s.dt.toNat then s.dt.toNat - 1 else 0) ∧
    (tickTimers s).st.toNat = (if 0 < s.st.toNat then s.st.toNat - 1 else 0) ∧
    onlyChanges [.dt, .st] s (tickTimers s)

/-- R272, R273: a key set writes that latch entry alone and the query returns it; an index outside 0..15 is refused by both (the
spec's own choice D29, log entry 20). -/
def Obligations.KeySetThenQuery : Prop :=
  ∀ (s : State) (k : Nat) (pressed : Bool),
    (∀ h : k < 16, (isKeyPressed k s = .next (getKey s ⟨k, h⟩)) ∧
      ∃ t, setKey k pressed s = .next t ∧ isKeyPressed k t = .next pressed ∧
        (∀ j : Fin 16, j.val ≠ k → getKey t j = getKey s j) ∧ onlyChanges [.key] s t) ∧
    (16 ≤ k → setKey k pressed s = .refused .keyIndexOutOfRange ∧
      isKeyPressed k s = .refused .keyIndexOutOfRange)

/-- R274: the framebuffer read returns pixel `(px, py)` at linear index `px + py * 64`, 2048 values in all. -/
def Obligations.FramebufferReadIsLinear : Prop :=
  ∀ (s : State) (px : Fin 64) (py : Fin 32),
    (readFramebuffer s)[px.val + py.val * 64]? = some (pixel s.fb px py)

/-- R292: a load of at most 3584 bytes writes them verbatim from 0x200 on and touches nothing else; a longer image, and a load
that is not the first action on memory before the first step, are refused (the spec's own choice D19, log entry 20). -/
def Obligations.LoadWritesTheImageOnce : Prop :=
  (∀ (s : State) (image : List Byte), image.length ≤ 3584 →
    ∃ t, loadProgram image s = .next t ∧
      (∀ k (h : k < image.length), readByte t (0x200 + k) = image[k]) ∧
      (∀ a < 4096, (a < 0x200 ∨ 0x200 + image.length ≤ a) → readByte t a = readByte s a) ∧
      onlyChanges [.memory] s t) ∧
  (∀ (s : State) (image : List Byte), 3584 < image.length → loadProgram image s = .refused .imageTooLong) ∧
  (∀ (ss : Session) (image : List Byte), ss.phase ≠ .constructed →
    hostApply ss (.load image) = .refused .loadNotAllowed) ∧
  ∀ (ss ss' : Session) (e : HostEvent), hostApply ss e = .next ss' →
    (e = .step → ss'.phase = .running) ∧ ((∃ image, e = .load image) → ss'.phase = .loaded) ∧
    (ss'.phase = .constructed → ss.phase = .constructed)

/-- R275, R80, R40: every finite sequence of host actions between and around steps keeps the memory invariant, and `stack[0]`
never changes. The sequences include ticks, key sets, queries and framebuffer reads before a load (the model's choice, log entry
26). -/
def Obligations.HostRunsKeepTheInvariant : Prop :=
  ∀ (es : List HostEvent) (ss ss' : Session), MemoryInvariant ss.state → hostRun ss es = .next ss' →
    MemoryInvariant ss'.state ∧ getStack ss'.state 0 = getStack ss.state 0
end

