-- ==== Sys2Proof/Laws/Decode.lean ====
section
/-! SUPPORT. The operand fields of each encoding format (30_encoding.md R101), a word put together again from its
fields, and well-formedness of every instruction. -/

namespace Sys2Proof

/-! ## Fields of a format -/

theorem fieldGroup_toNat (w : Word) : (fieldGroup w).toNat = w.toNat / 4096 % 16 := by
  simp [fieldGroup, Nat.shiftRight_eq_div_pow]

theorem fieldX_toNat (w : Word) : (fieldX w).toNat = w.toNat / 256 % 16 := by
  simp [fieldX, Nat.shiftRight_eq_div_pow]

theorem fieldY_toNat (w : Word) : (fieldY w).toNat = w.toNat / 16 % 16 := by
  simp [fieldY, Nat.shiftRight_eq_div_pow]

theorem fieldN_toNat (w : Word) : (fieldN w).toNat = w.toNat % 16 := by
  simp [fieldN]

theorem fieldKK_toNat (w : Word) : (fieldKK w).toNat = w.toNat % 256 := by
  simp [fieldKK]

theorem fieldNNN_toNat (w : Word) : (fieldNNN w).toNat = w.toNat % 4096 := by
  simp [fieldNNN]

/-- A concatenation as a number: the high part times its weight, plus the low part. -/
theorem append_toNat {m k : Nat} (a : BitVec m) (b : BitVec k) :
    (a ++ b).toNat = a.toNat * 2 ^ k + b.toNat := by
  rw [BitVec.toNat_append, ← Nat.shiftLeft_add_eq_or_of_lt b.isLt, Nat.shiftLeft_eq]

theorem formatA_toNat (g : Nibble) (nnn : Addr12) : (formatA g nnn).toNat = g.toNat * 4096 + nnn.toNat :=
  append_toNat g nnn

theorem formatXK_toNat (g : Nibble) (x : RegIx) (kk : Byte) :
    (formatXK g x kk).toNat = g.toNat * 4096 + (x.toNat * 256 + kk.toNat) := by
  have := append_toNat g (x ++ kk)
  rw [append_toNat x kk] at this
  exact this

theorem formatXY_toNat (g : Nibble) (x y : RegIx) (n : Nibble) :
    (formatXY g x y n).toNat = g.toNat * 4096 + (x.toNat * 256 + (y.toNat * 16 + n.toNat)) := by
  have := append_toNat g (x ++ (y ++ n))
  rw [append_toNat x (y ++ n), append_toNat y n] at this
  exact this

@[simp] theorem fieldGroup_formatA (g : Nibble) (nnn : Addr12) : fieldGroup (formatA g nnn) = g := by
  have := g.isLt; have := nnn.isLt
  apply BitVec.eq_of_toNat_eq; rw [fieldGroup_toNat, formatA_toNat]; omega

@[simp] theorem fieldNNN_formatA (g : Nibble) (nnn : Addr12) : fieldNNN (formatA g nnn) = nnn := by
  have := g.isLt; have := nnn.isLt
  apply BitVec.eq_of_toNat_eq; rw [fieldNNN_toNat, formatA_toNat]; omega

@[simp] theorem fieldGroup_formatXK (g : Nibble) (x : RegIx) (kk : Byte) : fieldGroup (formatXK g x kk) = g := by
  have := g.isLt; have := x.isLt; have := kk.isLt
  apply BitVec.eq_of_toNat_eq; rw [fieldGroup_toNat, formatXK_toNat]; omega

@[simp] theorem fieldX_formatXK (g : Nibble) (x : RegIx) (kk : Byte) : fieldX (formatXK g x kk) = x := by
  have := g.isLt; have := x.isLt; have := kk.isLt
  apply BitVec.eq_of_toNat_eq; rw [fieldX_toNat, formatXK_toNat]; omega

@[simp] theorem fieldKK_formatXK (g : Nibble) (x : RegIx) (kk : Byte) : fieldKK (formatXK g x kk) = kk := by
  have := g.isLt; have := x.isLt; have := kk.isLt
  apply BitVec.eq_of_toNat_eq; rw [fieldKK_toNat, formatXK_toNat]; omega

@[simp] theorem fieldGroup_formatXY (g : Nibble) (x y : RegIx) (n : Nibble) :
    fieldGroup (formatXY g x y n) = g := by
  have := g.isLt; have := x.isLt; have := y.isLt; have := n.isLt
  apply BitVec.eq_of_toNat_eq; rw [fieldGroup_toNat, formatXY_toNat]; omega

@[simp] theorem fieldX_formatXY (g : Nibble) (x y : RegIx) (n : Nibble) : fieldX (formatXY g x y n) = x := by
  have := g.isLt; have := x.isLt; have := y.isLt; have := n.isLt
  apply BitVec.eq_of_toNat_eq; rw [fieldX_toNat, formatXY_toNat]; omega

@[simp] theorem fieldY_formatXY (g : Nibble) (x y : RegIx) (n : Nibble) : fieldY (formatXY g x y n) = y := by
  have := g.isLt; have := x.isLt; have := y.isLt; have := n.isLt
  apply BitVec.eq_of_toNat_eq; rw [fieldY_toNat, formatXY_toNat]; omega

@[simp] theorem fieldN_formatXY (g : Nibble) (x y : RegIx) (n : Nibble) : fieldN (formatXY g x y n) = n := by
  have := g.isLt; have := x.isLt; have := y.isLt; have := n.isLt
  apply BitVec.eq_of_toNat_eq; rw [fieldN_toNat, formatXY_toNat]; omega

/-! ## A word from its fields -/

/-- A word is its group and address field. -/
theorem formatA_fields (w : Word) : formatA (fieldGroup w) (fieldNNN w) = w := by
  have := w.isLt
  apply BitVec.eq_of_toNat_eq
  rw [formatA_toNat, fieldGroup_toNat, fieldNNN_toNat]; omega

/-- A word is its group, register and byte fields. -/
theorem formatXK_fields (w : Word) : formatXK (fieldGroup w) (fieldX w) (fieldKK w) = w := by
  have := w.isLt
  apply BitVec.eq_of_toNat_eq
  rw [formatXK_toNat, fieldGroup_toNat, fieldX_toNat, fieldKK_toNat]; omega

/-- A word is its four nibbles. -/
theorem formatXY_fields (w : Word) : formatXY (fieldGroup w) (fieldX w) (fieldY w) (fieldN w) = w := by
  have := w.isLt
  apply BitVec.eq_of_toNat_eq
  rw [formatXY_toNat, fieldGroup_toNat, fieldX_toNat, fieldY_toNat, fieldN_toNat]; omega

/-- The word of two bytes as a number. -/
theorem wordOfBytes_toNat (hi lo : Byte) : (wordOfBytes hi lo).toNat = hi.toNat * 256 + lo.toNat :=
  append_toNat hi lo

/-! ## Masks of the opcode map (R105) -/

/-- The mask 0xF000 keeps the group. -/
theorem and_maskGroup (w : Word) : w &&& 0xF000#16 = formatXY (fieldGroup w) 0x0#4 0x0#4 0x0#4 := by
  conv => lhs; rw [← formatXY_fields w]
  apply BitVec.eq_of_getLsbD_eq
  intro k hk
  simp only [formatXY, BitVec.getLsbD_and, BitVec.getLsbD_append]
  interval_cases k <;> simp

/-- The mask 0xF00F keeps the group and the low nibble. -/
theorem and_maskNibble (w : Word) : w &&& 0xF00F#16 = formatXY (fieldGroup w) 0x0#4 0x0#4 (fieldN w) := by
  conv => lhs; rw [← formatXY_fields w]
  apply BitVec.eq_of_getLsbD_eq
  intro k hk
  simp only [formatXY, BitVec.getLsbD_and, BitVec.getLsbD_append]
  interval_cases k <;> simp

/-- The mask 0xF0FF keeps the group and the low byte. -/
theorem and_maskByte (w : Word) : w &&& 0xF0FF#16 = formatXK (fieldGroup w) 0x0#4 (fieldKK w) := by
  conv => lhs; rw [← formatXK_fields w]
  apply BitVec.eq_of_getLsbD_eq
  intro k hk
  simp only [formatXK, BitVec.getLsbD_and, BitVec.getLsbD_append]
  interval_cases k <;> simp

/-! ## Well-formedness -/

/-- A bit vector's number fits its width. -/
@[simp] theorem operandFits_toNat {width : Nat} (b : BitVec width) : operandFits width b.toNat = true :=
  decide_eq_true b.isLt

/-- Every instruction is well-formed: the operand types hold the bounds of R102 and R103. -/
theorem Laws.instr_wellFormed (i : Instr) : i.wellFormed = true := by
  cases i <;> simp [Instr.wellFormed]

/-- Decoding two bytes is decoding their word. -/
theorem decode_two (hi lo : Byte) (rest : List Byte) :
    decode (hi :: lo :: rest) = match decodeWord (wordOfBytes hi lo) with
      | some i => .instr i rest
      | none => .unrecognised (wordOfBytes hi lo) rest := by
  rcases h : decodeWord (wordOfBytes hi lo) with _ | i <;> simp [decode, h]

end Sys2Proof
end

