-- ==== Sys2Proof/Laws/State.lean ====
section
/-! SUPPORT. One lemma per field per update of the state, and what the register, stack, latch and memory reads see of
each update. All are true by unfolding the update once, so that no later proof does. -/

namespace Sys2Proof.Machine

variable (s : State)

/-! ### setV -/

@[simp] theorem setV_mem (x : RegIx) (b : Byte) : (setV s x b).mem = s.mem := rfl
@[simp] theorem setV_v (x : RegIx) (b : Byte) : (setV s x b).v = s.v.set x.toNat b := rfl
@[simp] theorem setV_i (x : RegIx) (b : Byte) : (setV s x b).i = s.i := rfl
@[simp] theorem setV_pc (x : RegIx) (b : Byte) : (setV s x b).pc = s.pc := rfl
@[simp] theorem setV_sp (x : RegIx) (b : Byte) : (setV s x b).sp = s.sp := rfl
@[simp] theorem setV_stack (x : RegIx) (b : Byte) : (setV s x b).stack = s.stack := rfl
@[simp] theorem setV_dt (x : RegIx) (b : Byte) : (setV s x b).dt = s.dt := rfl
@[simp] theorem setV_st (x : RegIx) (b : Byte) : (setV s x b).st = s.st := rfl
@[simp] theorem setV_fb (x : RegIx) (b : Byte) : (setV s x b).fb = s.fb := rfl
@[simp] theorem setV_key (x : RegIx) (b : Byte) : (setV s x b).key = s.key := rfl
@[simp] theorem setV_diag (x : RegIx) (b : Byte) : (setV s x b).diag = s.diag := rfl
@[simp] theorem setV_faulted (x : RegIx) (b : Byte) : (setV s x b).faulted = s.faulted := rfl
@[simp] theorem setV_rndDraws (x : RegIx) (b : Byte) : (setV s x b).rndDraws = s.rndDraws := rfl
@[simp] theorem setV_keyDraws (x : RegIx) (b : Byte) : (setV s x b).keyDraws = s.keyDraws := rfl
@[simp] theorem getStack_setV (x : RegIx) (b : Byte) (q : Fin 16) : getStack (setV s x b) q = getStack s q := rfl
@[simp] theorem getKey_setV (x : RegIx) (b : Byte) (k : Fin 16) : getKey (setV s x b) k = getKey s k := rfl
@[simp] theorem readByte_setV (x : RegIx) (b : Byte) (m : Nat) : readByte (setV s x b) m = readByte s m := rfl

/-! ### setI -/

@[simp] theorem setI_mem (w : Word) : (setI s w).mem = s.mem := rfl
@[simp] theorem setI_v (w : Word) : (setI s w).v = s.v := rfl
@[simp] theorem setI_i (w : Word) : (setI s w).i = w := rfl
@[simp] theorem setI_pc (w : Word) : (setI s w).pc = s.pc := rfl
@[simp] theorem setI_sp (w : Word) : (setI s w).sp = s.sp := rfl
@[simp] theorem setI_stack (w : Word) : (setI s w).stack = s.stack := rfl
@[simp] theorem setI_dt (w : Word) : (setI s w).dt = s.dt := rfl
@[simp] theorem setI_st (w : Word) : (setI s w).st = s.st := rfl
@[simp] theorem setI_fb (w : Word) : (setI s w).fb = s.fb := rfl
@[simp] theorem setI_key (w : Word) : (setI s w).key = s.key := rfl
@[simp] theorem setI_diag (w : Word) : (setI s w).diag = s.diag := rfl
@[simp] theorem setI_faulted (w : Word) : (setI s w).faulted = s.faulted := rfl
@[simp] theorem setI_rndDraws (w : Word) : (setI s w).rndDraws = s.rndDraws := rfl
@[simp] theorem setI_keyDraws (w : Word) : (setI s w).keyDraws = s.keyDraws := rfl
@[simp] theorem getV_setI (w : Word) (r : RegIx) : getV (setI s w) r = getV s r := rfl
@[simp] theorem getStack_setI (w : Word) (q : Fin 16) : getStack (setI s w) q = getStack s q := rfl
@[simp] theorem getKey_setI (w : Word) (k : Fin 16) : getKey (setI s w) k = getKey s k := rfl
@[simp] theorem readByte_setI (w : Word) (m : Nat) : readByte (setI s w) m = readByte s m := rfl

/-! ### setPc -/

@[simp] theorem setPc_mem (w : Word) : (setPc s w).mem = s.mem := rfl
@[simp] theorem setPc_v (w : Word) : (setPc s w).v = s.v := rfl
@[simp] theorem setPc_i (w : Word) : (setPc s w).i = s.i := rfl
@[simp] theorem setPc_pc (w : Word) : (setPc s w).pc = w := rfl
@[simp] theorem setPc_sp (w : Word) : (setPc s w).sp = s.sp := rfl
@[simp] theorem setPc_stack (w : Word) : (setPc s w).stack = s.stack := rfl
@[simp] theorem setPc_dt (w : Word) : (setPc s w).dt = s.dt := rfl
@[simp] theorem setPc_st (w : Word) : (setPc s w).st = s.st := rfl
@[simp] theorem setPc_fb (w : Word) : (setPc s w).fb = s.fb := rfl
@[simp] theorem setPc_key (w : Word) : (setPc s w).key = s.key := rfl
@[simp] theorem setPc_diag (w : Word) : (setPc s w).diag = s.diag := rfl
@[simp] theorem setPc_faulted (w : Word) : (setPc s w).faulted = s.faulted := rfl
@[simp] theorem setPc_rndDraws (w : Word) : (setPc s w).rndDraws = s.rndDraws := rfl
@[simp] theorem setPc_keyDraws (w : Word) : (setPc s w).keyDraws = s.keyDraws := rfl
@[simp] theorem getV_setPc (w : Word) (r : RegIx) : getV (setPc s w) r = getV s r := rfl
@[simp] theorem getStack_setPc (w : Word) (q : Fin 16) : getStack (setPc s w) q = getStack s q := rfl
@[simp] theorem getKey_setPc (w : Word) (k : Fin 16) : getKey (setPc s w) k = getKey s k := rfl
@[simp] theorem readByte_setPc (w : Word) (m : Nat) : readByte (setPc s w) m = readByte s m := rfl

/-! ### setDT -/

@[simp] theorem setDT_mem (b : Byte) : (setDT s b).mem = s.mem := rfl
@[simp] theorem setDT_v (b : Byte) : (setDT s b).v = s.v := rfl
@[simp] theorem setDT_i (b : Byte) : (setDT s b).i = s.i := rfl
@[simp] theorem setDT_pc (b : Byte) : (setDT s b).pc = s.pc := rfl
@[simp] theorem setDT_sp (b : Byte) : (setDT s b).sp = s.sp := rfl
@[simp] theorem setDT_stack (b : Byte) : (setDT s b).stack = s.stack := rfl
@[simp] theorem setDT_dt (b : Byte) : (setDT s b).dt = b := rfl
@[simp] theorem setDT_st (b : Byte) : (setDT s b).st = s.st := rfl
@[simp] theorem setDT_fb (b : Byte) : (setDT s b).fb = s.fb := rfl
@[simp] theorem setDT_key (b : Byte) : (setDT s b).key = s.key := rfl
@[simp] theorem setDT_diag (b : Byte) : (setDT s b).diag = s.diag := rfl
@[simp] theorem setDT_faulted (b : Byte) : (setDT s b).faulted = s.faulted := rfl
@[simp] theorem setDT_rndDraws (b : Byte) : (setDT s b).rndDraws = s.rndDraws := rfl
@[simp] theorem setDT_keyDraws (b : Byte) : (setDT s b).keyDraws = s.keyDraws := rfl
@[simp] theorem getV_setDT (b : Byte) (r : RegIx) : getV (setDT s b) r = getV s r := rfl
@[simp] theorem getStack_setDT (b : Byte) (q : Fin 16) : getStack (setDT s b) q = getStack s q := rfl
@[simp] theorem getKey_setDT (b : Byte) (k : Fin 16) : getKey (setDT s b) k = getKey s k := rfl
@[simp] theorem readByte_setDT (b : Byte) (m : Nat) : readByte (setDT s b) m = readByte s m := rfl

/-! ### setST -/

@[simp] theorem setST_mem (b : Byte) : (setST s b).mem = s.mem := rfl
@[simp] theorem setST_v (b : Byte) : (setST s b).v = s.v := rfl
@[simp] theorem setST_i (b : Byte) : (setST s b).i = s.i := rfl
@[simp] theorem setST_pc (b : Byte) : (setST s b).pc = s.pc := rfl
@[simp] theorem setST_sp (b : Byte) : (setST s b).sp = s.sp := rfl
@[simp] theorem setST_stack (b : Byte) : (setST s b).stack = s.stack := rfl
@[simp] theorem setST_dt (b : Byte) : (setST s b).dt = s.dt := rfl
@[simp] theorem setST_st (b : Byte) : (setST s b).st = b := rfl
@[simp] theorem setST_fb (b : Byte) : (setST s b).fb = s.fb := rfl
@[simp] theorem setST_key (b : Byte) : (setST s b).key = s.key := rfl
@[simp] theorem setST_diag (b : Byte) : (setST s b).diag = s.diag := rfl
@[simp] theorem setST_faulted (b : Byte) : (setST s b).faulted = s.faulted := rfl
@[simp] theorem setST_rndDraws (b : Byte) : (setST s b).rndDraws = s.rndDraws := rfl
@[simp] theorem setST_keyDraws (b : Byte) : (setST s b).keyDraws = s.keyDraws := rfl
@[simp] theorem getV_setST (b : Byte) (r : RegIx) : getV (setST s b) r = getV s r := rfl
@[simp] theorem getStack_setST (b : Byte) (q : Fin 16) : getStack (setST s b) q = getStack s q := rfl
@[simp] theorem getKey_setST (b : Byte) (k : Fin 16) : getKey (setST s b) k = getKey s k := rfl
@[simp] theorem readByte_setST (b : Byte) (m : Nat) : readByte (setST s b) m = readByte s m := rfl

/-! ### setFb -/

@[simp] theorem setFb_mem (fb : Framebuffer) : (setFb s fb).mem = s.mem := rfl
@[simp] theorem setFb_v (fb : Framebuffer) : (setFb s fb).v = s.v := rfl
@[simp] theorem setFb_i (fb : Framebuffer) : (setFb s fb).i = s.i := rfl
@[simp] theorem setFb_pc (fb : Framebuffer) : (setFb s fb).pc = s.pc := rfl
@[simp] theorem setFb_sp (fb : Framebuffer) : (setFb s fb).sp = s.sp := rfl
@[simp] theorem setFb_stack (fb : Framebuffer) : (setFb s fb).stack = s.stack := rfl
@[simp] theorem setFb_dt (fb : Framebuffer) : (setFb s fb).dt = s.dt := rfl
@[simp] theorem setFb_st (fb : Framebuffer) : (setFb s fb).st = s.st := rfl
@[simp] theorem setFb_fb (fb : Framebuffer) : (setFb s fb).fb = fb := rfl
@[simp] theorem setFb_key (fb : Framebuffer) : (setFb s fb).key = s.key := rfl
@[simp] theorem setFb_diag (fb : Framebuffer) : (setFb s fb).diag = s.diag := rfl
@[simp] theorem setFb_faulted (fb : Framebuffer) : (setFb s fb).faulted = s.faulted := rfl
@[simp] theorem setFb_rndDraws (fb : Framebuffer) : (setFb s fb).rndDraws = s.rndDraws := rfl
@[simp] theorem setFb_keyDraws (fb : Framebuffer) : (setFb s fb).keyDraws = s.keyDraws := rfl
@[simp] theorem getV_setFb (fb : Framebuffer) (r : RegIx) : getV (setFb s fb) r = getV s r := rfl
@[simp] theorem getStack_setFb (fb : Framebuffer) (q : Fin 16) : getStack (setFb s fb) q = getStack s q := rfl
@[simp] theorem getKey_setFb (fb : Framebuffer) (k : Fin 16) : getKey (setFb s fb) k = getKey s k := rfl
@[simp] theorem readByte_setFb (fb : Framebuffer) (m : Nat) : readByte (setFb s fb) m = readByte s m := rfl

/-! ### setStack -/

@[simp] theorem setStack_mem (j : Fin 16) (w : Word) : (setStack s j w).mem = s.mem := rfl
@[simp] theorem setStack_v (j : Fin 16) (w : Word) : (setStack s j w).v = s.v := rfl
@[simp] theorem setStack_i (j : Fin 16) (w : Word) : (setStack s j w).i = s.i := rfl
@[simp] theorem setStack_pc (j : Fin 16) (w : Word) : (setStack s j w).pc = s.pc := rfl
@[simp] theorem setStack_sp (j : Fin 16) (w : Word) : (setStack s j w).sp = s.sp := rfl
@[simp] theorem setStack_stack (j : Fin 16) (w : Word) : (setStack s j w).stack = s.stack.set j w := rfl
@[simp] theorem setStack_dt (j : Fin 16) (w : Word) : (setStack s j w).dt = s.dt := rfl
@[simp] theorem setStack_st (j : Fin 16) (w : Word) : (setStack s j w).st = s.st := rfl
@[simp] theorem setStack_fb (j : Fin 16) (w : Word) : (setStack s j w).fb = s.fb := rfl
@[simp] theorem setStack_key (j : Fin 16) (w : Word) : (setStack s j w).key = s.key := rfl
@[simp] theorem setStack_diag (j : Fin 16) (w : Word) : (setStack s j w).diag = s.diag := rfl
@[simp] theorem setStack_faulted (j : Fin 16) (w : Word) : (setStack s j w).faulted = s.faulted := rfl
@[simp] theorem setStack_rndDraws (j : Fin 16) (w : Word) : (setStack s j w).rndDraws = s.rndDraws := rfl
@[simp] theorem setStack_keyDraws (j : Fin 16) (w : Word) : (setStack s j w).keyDraws = s.keyDraws := rfl
@[simp] theorem getV_setStack (j : Fin 16) (w : Word) (r : RegIx) : getV (setStack s j w) r = getV s r := rfl
@[simp] theorem getKey_setStack (j : Fin 16) (w : Word) (k : Fin 16) : getKey (setStack s j w) k = getKey s k := rfl
@[simp] theorem readByte_setStack (j : Fin 16) (w : Word) (m : Nat) : readByte (setStack s j w) m = readByte s m := rfl

/-! ### setSp -/

@[simp] theorem setSp_mem (j : Fin 16) : (setSp s j).mem = s.mem := rfl
@[simp] theorem setSp_v (j : Fin 16) : (setSp s j).v = s.v := rfl
@[simp] theorem setSp_i (j : Fin 16) : (setSp s j).i = s.i := rfl
@[simp] theorem setSp_pc (j : Fin 16) : (setSp s j).pc = s.pc := rfl
@[simp] theorem setSp_sp (j : Fin 16) : (setSp s j).sp = j := rfl
@[simp] theorem setSp_stack (j : Fin 16) : (setSp s j).stack = s.stack := rfl
@[simp] theorem setSp_dt (j : Fin 16) : (setSp s j).dt = s.dt := rfl
@[simp] theorem setSp_st (j : Fin 16) : (setSp s j).st = s.st := rfl
@[simp] theorem setSp_fb (j : Fin 16) : (setSp s j).fb = s.fb := rfl
@[simp] theorem setSp_key (j : Fin 16) : (setSp s j).key = s.key := rfl
@[simp] theorem setSp_diag (j : Fin 16) : (setSp s j).diag = s.diag := rfl
@[simp] theorem setSp_faulted (j : Fin 16) : (setSp s j).faulted = s.faulted := rfl
@[simp] theorem setSp_rndDraws (j : Fin 16) : (setSp s j).rndDraws = s.rndDraws := rfl
@[simp] theorem setSp_keyDraws (j : Fin 16) : (setSp s j).keyDraws = s.keyDraws := rfl
@[simp] theorem getV_setSp (j : Fin 16) (r : RegIx) : getV (setSp s j) r = getV s r := rfl
@[simp] theorem getStack_setSp (j : Fin 16) (q : Fin 16) : getStack (setSp s j) q = getStack s q := rfl
@[simp] theorem getKey_setSp (j : Fin 16) (k : Fin 16) : getKey (setSp s j) k = getKey s k := rfl
@[simp] theorem readByte_setSp (j : Fin 16) (m : Nat) : readByte (setSp s j) m = readByte s m := rfl

/-! ### countRandom -/

@[simp] theorem countRandom_mem : (countRandom s).mem = s.mem := rfl
@[simp] theorem countRandom_v : (countRandom s).v = s.v := rfl
@[simp] theorem countRandom_i : (countRandom s).i = s.i := rfl
@[simp] theorem countRandom_pc : (countRandom s).pc = s.pc := rfl
@[simp] theorem countRandom_sp : (countRandom s).sp = s.sp := rfl
@[simp] theorem countRandom_stack : (countRandom s).stack = s.stack := rfl
@[simp] theorem countRandom_dt : (countRandom s).dt = s.dt := rfl
@[simp] theorem countRandom_st : (countRandom s).st = s.st := rfl
@[simp] theorem countRandom_fb : (countRandom s).fb = s.fb := rfl
@[simp] theorem countRandom_key : (countRandom s).key = s.key := rfl
@[simp] theorem countRandom_diag : (countRandom s).diag = s.diag := rfl
@[simp] theorem countRandom_faulted : (countRandom s).faulted = s.faulted := rfl
@[simp] theorem countRandom_rndDraws : (countRandom s).rndDraws = s.rndDraws + 1 := rfl
@[simp] theorem countRandom_keyDraws : (countRandom s).keyDraws = s.keyDraws := rfl
@[simp] theorem getV_countRandom (r : RegIx) : getV (countRandom s) r = getV s r := rfl
@[simp] theorem getStack_countRandom (q : Fin 16) : getStack (countRandom s) q = getStack s q := rfl
@[simp] theorem getKey_countRandom (k : Fin 16) : getKey (countRandom s) k = getKey s k := rfl
@[simp] theorem readByte_countRandom (m : Nat) : readByte (countRandom s) m = readByte s m := rfl

/-! ### countKeyDraw -/

@[simp] theorem countKeyDraw_mem : (countKeyDraw s).mem = s.mem := rfl
@[simp] theorem countKeyDraw_v : (countKeyDraw s).v = s.v := rfl
@[simp] theorem countKeyDraw_i : (countKeyDraw s).i = s.i := rfl
@[simp] theorem countKeyDraw_pc : (countKeyDraw s).pc = s.pc := rfl
@[simp] theorem countKeyDraw_sp : (countKeyDraw s).sp = s.sp := rfl
@[simp] theorem countKeyDraw_stack : (countKeyDraw s).stack = s.stack := rfl
@[simp] theorem countKeyDraw_dt : (countKeyDraw s).dt = s.dt := rfl
@[simp] theorem countKeyDraw_st : (countKeyDraw s).st = s.st := rfl
@[simp] theorem countKeyDraw_fb : (countKeyDraw s).fb = s.fb := rfl
@[simp] theorem countKeyDraw_key : (countKeyDraw s).key = s.key := rfl
@[simp] theorem countKeyDraw_diag : (countKeyDraw s).diag = s.diag := rfl
@[simp] theorem countKeyDraw_faulted : (countKeyDraw s).faulted = s.faulted := rfl
@[simp] theorem countKeyDraw_rndDraws : (countKeyDraw s).rndDraws = s.rndDraws := rfl
@[simp] theorem countKeyDraw_keyDraws : (countKeyDraw s).keyDraws = s.keyDraws + 1 := rfl
@[simp] theorem getV_countKeyDraw (r : RegIx) : getV (countKeyDraw s) r = getV s r := rfl
@[simp] theorem getStack_countKeyDraw (q : Fin 16) : getStack (countKeyDraw s) q = getStack s q := rfl
@[simp] theorem getKey_countKeyDraw (k : Fin 16) : getKey (countKeyDraw s) k = getKey s k := rfl
@[simp] theorem readByte_countKeyDraw (m : Nat) : readByte (countKeyDraw s) m = readByte s m := rfl

/-! ### reportUnknown -/

@[simp] theorem reportUnknown_mem (op a : Word) : (reportUnknown s op a).mem = s.mem := rfl
@[simp] theorem reportUnknown_v (op a : Word) : (reportUnknown s op a).v = s.v := rfl
@[simp] theorem reportUnknown_i (op a : Word) : (reportUnknown s op a).i = s.i := rfl
@[simp] theorem reportUnknown_pc (op a : Word) : (reportUnknown s op a).pc = s.pc := rfl
@[simp] theorem reportUnknown_sp (op a : Word) : (reportUnknown s op a).sp = s.sp := rfl
@[simp] theorem reportUnknown_stack (op a : Word) : (reportUnknown s op a).stack = s.stack := rfl
@[simp] theorem reportUnknown_dt (op a : Word) : (reportUnknown s op a).dt = s.dt := rfl
@[simp] theorem reportUnknown_st (op a : Word) : (reportUnknown s op a).st = s.st := rfl
@[simp] theorem reportUnknown_fb (op a : Word) : (reportUnknown s op a).fb = s.fb := rfl
@[simp] theorem reportUnknown_key (op a : Word) : (reportUnknown s op a).key = s.key := rfl
@[simp] theorem reportUnknown_diag (op a : Word) : (reportUnknown s op a).diag = s.diag ++ [⟨op, a⟩] := rfl
@[simp] theorem reportUnknown_faulted (op a : Word) : (reportUnknown s op a).faulted = s.faulted := rfl
@[simp] theorem reportUnknown_rndDraws (op a : Word) : (reportUnknown s op a).rndDraws = s.rndDraws := rfl
@[simp] theorem reportUnknown_keyDraws (op a : Word) : (reportUnknown s op a).keyDraws = s.keyDraws := rfl
@[simp] theorem getV_reportUnknown (op a : Word) (r : RegIx) : getV (reportUnknown s op a) r = getV s r := rfl
@[simp] theorem getStack_reportUnknown (op a : Word) (q : Fin 16) : getStack (reportUnknown s op a) q = getStack s q := rfl
@[simp] theorem getKey_reportUnknown (op a : Word) (k : Fin 16) : getKey (reportUnknown s op a) k = getKey s k := rfl
@[simp] theorem readByte_reportUnknown (op a : Word) (m : Nat) : readByte (reportUnknown s op a) m = readByte s m := rfl

/-! ### advancePc -/

@[simp] theorem advancePc_mem : (advancePc s).mem = s.mem := rfl
@[simp] theorem advancePc_v : (advancePc s).v = s.v := rfl
@[simp] theorem advancePc_i : (advancePc s).i = s.i := rfl
@[simp] theorem advancePc_pc : (advancePc s).pc = s.pc + 2#16 := rfl
@[simp] theorem advancePc_sp : (advancePc s).sp = s.sp := rfl
@[simp] theorem advancePc_stack : (advancePc s).stack = s.stack := rfl
@[simp] theorem advancePc_dt : (advancePc s).dt = s.dt := rfl
@[simp] theorem advancePc_st : (advancePc s).st = s.st := rfl
@[simp] theorem advancePc_fb : (advancePc s).fb = s.fb := rfl
@[simp] theorem advancePc_key : (advancePc s).key = s.key := rfl
@[simp] theorem advancePc_diag : (advancePc s).diag = s.diag := rfl
@[simp] theorem advancePc_faulted : (advancePc s).faulted = s.faulted := rfl
@[simp] theorem advancePc_rndDraws : (advancePc s).rndDraws = s.rndDraws := rfl
@[simp] theorem advancePc_keyDraws : (advancePc s).keyDraws = s.keyDraws := rfl
@[simp] theorem getV_advancePc (r : RegIx) : getV (advancePc s) r = getV s r := rfl
@[simp] theorem getStack_advancePc (q : Fin 16) : getStack (advancePc s) q = getStack s q := rfl
@[simp] theorem getKey_advancePc (k : Fin 16) : getKey (advancePc s) k = getKey s k := rfl
@[simp] theorem readByte_advancePc (m : Nat) : readByte (advancePc s) m = readByte s m := rfl

/-! ### writeByte -/

@[simp] theorem writeByte_mem (a : Nat) (b : Byte) : (writeByte s a b).mem = memSet s.mem (effective a) b := rfl
@[simp] theorem writeByte_v (a : Nat) (b : Byte) : (writeByte s a b).v = s.v := rfl
@[simp] theorem writeByte_i (a : Nat) (b : Byte) : (writeByte s a b).i = s.i := rfl
@[simp] theorem writeByte_pc (a : Nat) (b : Byte) : (writeByte s a b).pc = s.pc := rfl
@[simp] theorem writeByte_sp (a : Nat) (b : Byte) : (writeByte s a b).sp = s.sp := rfl
@[simp] theorem writeByte_stack (a : Nat) (b : Byte) : (writeByte s a b).stack = s.stack := rfl
@[simp] theorem writeByte_dt (a : Nat) (b : Byte) : (writeByte s a b).dt = s.dt := rfl
@[simp] theorem writeByte_st (a : Nat) (b : Byte) : (writeByte s a b).st = s.st := rfl
@[simp] theorem writeByte_fb (a : Nat) (b : Byte) : (writeByte s a b).fb = s.fb := rfl
@[simp] theorem writeByte_key (a : Nat) (b : Byte) : (writeByte s a b).key = s.key := rfl
@[simp] theorem writeByte_diag (a : Nat) (b : Byte) : (writeByte s a b).diag = s.diag := rfl
@[simp] theorem writeByte_faulted (a : Nat) (b : Byte) : (writeByte s a b).faulted = (s.faulted || marksGlyphWrite a) := rfl
@[simp] theorem writeByte_rndDraws (a : Nat) (b : Byte) : (writeByte s a b).rndDraws = s.rndDraws := rfl
@[simp] theorem writeByte_keyDraws (a : Nat) (b : Byte) : (writeByte s a b).keyDraws = s.keyDraws := rfl
@[simp] theorem getV_writeByte (a : Nat) (b : Byte) (r : RegIx) : getV (writeByte s a b) r = getV s r := rfl
@[simp] theorem getStack_writeByte (a : Nat) (b : Byte) (q : Fin 16) : getStack (writeByte s a b) q = getStack s q := rfl
@[simp] theorem getKey_writeByte (a : Nat) (b : Byte) (k : Fin 16) : getKey (writeByte s a b) k = getKey s k := rfl

/-! ### Reads of the updated part -/

/-- A register reads back the byte just written to it. -/
@[simp] theorem getV_setV_same (x : RegIx) (b : Byte) : getV (setV s x b) x = b := by
  simp [getV, setV]

/-- Writing one register leaves every other as it was. -/
theorem getV_setV_other {x r : RegIx} (b : Byte) (h : r ≠ x) : getV (setV s x b) r = getV s r := by
  have : x.toNat ≠ r.toNat := fun e => h (BitVec.eq_of_toNat_eq e.symm)
  simp [getV, setV, this]

/-- A register read after a register write. -/
theorem getV_setV (x r : RegIx) (b : Byte) : getV (setV s x b) r = if r = x then b else getV s r := by
  split
  · next h => subst h; exact getV_setV_same s r b
  · next h => exact getV_setV_other s b h

/-- A stack slot reads back the word just written to it. -/
@[simp] theorem getStack_setStack_same (j : Fin 16) (w : Word) : getStack (setStack s j w) j = w := by
  simp [getStack, setStack]

/-- Writing one stack slot leaves every other as it was. -/
theorem getStack_setStack_other {j q : Fin 16} (w : Word) (h : q ≠ j) :
    getStack (setStack s j w) q = getStack s q := by
  have : j.val ≠ q.val := fun e => h (Fin.ext e.symm)
  simp [getStack, setStack, this]

end Sys2Proof.Machine
end

