-- ==== Sys2Proof/Laws/Memory.lean ====
section
/-! SUPPORT. Memory laws: read after write, and every memory operation keeps the canonical form. None of the read laws
assumes the canonical form. -/

namespace Sys2Proof.Machine

/-- Masking is the remainder modulo 4096. -/
theorem effective_eq_mod (a : Nat) : effective a = a % 4096 :=
  Nat.and_two_pow_sub_one_eq_mod a 12

/-- Every masked address is inside memory (R72). -/
theorem effective_lt (a : Nat) : effective a < memSize := by
  rw [effective_eq_mod]; exact Nat.mod_lt _ (by decide)

/-- The glyph region is exactly `[FONT_BASE, FONT_BASE + 80)` (R77): it ends at or below 0x200. -/
theorem inGlyphRegion_iff (a : Nat) : inGlyphRegion a = true ↔ fontBase ≤ a ∧ a < fontBase + glyphBytes := by
  have h := Config.fontBase.isLt
  have hb : fontBase < 433 := h
  simp only [inGlyphRegion, Bool.and_eq_true, decide_eq_true_eq]
  simp only [programBase, glyphBytes]
  omega

/-- Erasing an index makes it read its reset byte. -/
theorem memGet_memErase_same (m : Memory) (a : Nat) : memGet (memErase m a) a = resetByte a := by
  induction m with
  | nil => rfl
  | cons c m ih =>
    obtain ⟨k, w⟩ := c
    by_cases h : k = a
    · simpa [memErase, h] using ih
    · simpa [memErase, h, memGet] using ih

/-- Erasing an index leaves every other reading as it was. -/
theorem memGet_memErase_other (m : Memory) {a c : Nat} (h : c ≠ a) :
    memGet (memErase m a) c = memGet m c := by
  induction m with
  | nil => rfl
  | cons d m ih =>
    obtain ⟨k, w⟩ := d
    by_cases hk : k = a
    · have : k ≠ c := fun e => h (e ▸ hk)
      simpa [memErase, hk, memGet, this, Ne.symm h] using ih
    · by_cases hc : k = c
      · simp [memErase, memGet, hc, h]
      · simpa [memErase, hk, memGet, hc] using ih

/-- An inserted cell is read back, if the index was not listed. -/
theorem memGet_memInsert_same (m : Memory) (a : Nat) (b : Byte) (h : ∀ c ∈ m, c.1 ≠ a) :
    memGet (memInsert m a b) a = b := by
  induction m with
  | nil => simp [memInsert, memGet]
  | cons d m ih =>
    obtain ⟨k, w⟩ := d
    have hk : k ≠ a := h (k, w) (by simp)
    have ih := ih (fun c hc => h c (by simp [hc]))
    by_cases hlt : a < k
    · simp [memInsert, hlt, memGet]
    · simp [memInsert, hlt, memGet, hk, ih]

/-- An inserted cell leaves every other index as it was. -/
theorem memGet_memInsert_other (m : Memory) {a c : Nat} (b : Byte) (h : c ≠ a) :
    memGet (memInsert m a b) c = memGet m c := by
  induction m with
  | nil => simp [memInsert, memGet, Ne.symm h]
  | cons d m ih =>
    obtain ⟨k, w⟩ := d
    by_cases hlt : a < k
    · simp [memInsert, hlt, memGet, Ne.symm h]
    · simp [memInsert, hlt, memGet, ih]

theorem memErase_not_listed (m : Memory) (a : Nat) : ∀ c ∈ memErase m a, c.1 ≠ a := by
  intro c hc
  simpa using (List.mem_filter.mp hc).2

/-- A byte just written is read back. -/
@[simp] theorem memGet_memSet_same (m : Memory) (a : Nat) (b : Byte) : memGet (memSet m a b) a = b := by
  unfold memSet
  split
  · next h => rw [memGet_memErase_same, h]
  · exact memGet_memInsert_same _ _ _ (memErase_not_listed m a)

/-- A write leaves every other index as it was. -/
theorem memGet_memSet_other (m : Memory) {a c : Nat} (b : Byte) (h : c ≠ a) :
    memGet (memSet m a b) c = memGet m c := by
  unfold memSet
  split
  · exact memGet_memErase_other m h
  · rw [memGet_memInsert_other _ _ h, memGet_memErase_other m h]

/-- A byte read after a byte write. -/
theorem memGet_memSet (m : Memory) (a c : Nat) (b : Byte) :
    memGet (memSet m a b) c = if c = a then b else memGet m c := by
  split
  · next h => subst h; exact memGet_memSet_same m c b
  · next h => exact memGet_memSet_other m b h

/-! ## The canonical form -/

theorem memErase_wf {m : Memory} (a : Nat) (h : Memory.wf m) : Memory.wf (memErase m a) :=
  ⟨h.1.filter _, fun c hc => h.2 c (List.mem_filter.mp hc).1⟩

theorem mem_memInsert {m : Memory} {a : Nat} {b : Byte} {c : Nat × Byte} :
    c ∈ memInsert m a b ↔ c = (a, b) ∨ c ∈ m := by
  induction m with
  | nil => simp [memInsert]
  | cons d m ih =>
    obtain ⟨k, w⟩ := d
    by_cases hlt : a < k
    · simp [memInsert, hlt]
    · simp only [memInsert, hlt, if_false, List.mem_cons, ih]
      tauto

theorem memInsert_pairwise {m : Memory} (a : Nat) (b : Byte) (h : m.Pairwise (fun c d => c.1 < d.1))
    (hn : ∀ c ∈ m, c.1 ≠ a) : (memInsert m a b).Pairwise (fun c d => c.1 < d.1) := by
  induction m with
  | nil => simp [memInsert]
  | cons d m ih =>
    obtain ⟨k, w⟩ := d
    rw [List.pairwise_cons] at h
    have hk : k ≠ a := hn (k, w) (by simp)
    by_cases hlt : a < k
    · simp only [memInsert, hlt, if_true, List.pairwise_cons, List.mem_cons]
      refine ⟨?_, h⟩
      rintro c (rfl | hc)
      · exact hlt
      · exact lt_trans hlt (h.1 c hc)
    · simp only [memInsert, hlt, if_false, List.pairwise_cons]
      refine ⟨fun c hc => ?_, ih h.2 (fun c hc => hn c (by simp [hc]))⟩
      rcases mem_memInsert.mp hc with rfl | hc
      · show k < a; omega
      · exact h.1 c hc

/-- A write inside memory keeps the canonical form. -/
theorem memSet_wf {m : Memory} {a : Nat} (b : Byte) (ha : a < memSize) (h : Memory.wf m) :
    Memory.wf (memSet m a b) := by
  unfold memSet
  have he := memErase_wf a h
  split
  · exact he
  · next hb =>
    refine ⟨memInsert_pairwise a b he.1 (memErase_not_listed m a), fun c hc => ?_⟩
    rcases mem_memInsert.mp hc with rfl | hc
    · exact ⟨ha, hb⟩
    · exact he.2 c hc

/-- Bytes placed in memory keep the canonical form. -/
theorem placeBytes_wf (bs : List Byte) : ∀ {m : Memory} (a : Nat), Memory.wf m → Memory.wf (placeBytes m a bs) := by
  induction bs with
  | nil => exact fun _ h => h
  | cons b bs ih => exact fun a h => ih (a + 1) (memSet_wf b (effective_lt a) h)

/-- A `MemWrite` keeps the canonical form. -/
theorem writeByte_wf {s : State} (a : Nat) (b : Byte) (h : Memory.wf s.mem) :
    Memory.wf (writeByte s a b).mem := memSet_wf b (effective_lt a) h

/-- The memory of a run of writes is the memory with the bytes placed. -/
@[simp] theorem writeBytes_mem (bs : List Byte) : ∀ (s : State) (a : Nat),
    (writeBytes s a bs).mem = placeBytes s.mem a bs := by
  induction bs with
  | nil => intro _ _; rfl
  | cons b bs ih => intro s a; simp [writeBytes, placeBytes, ih]

/-- A run of writes keeps the canonical form. -/
theorem writeBytes_wf {s : State} (a : Nat) (bs : List Byte) (h : Memory.wf s.mem) :
    Memory.wf (writeBytes s a bs).mem := by
  rw [writeBytes_mem]; exact placeBytes_wf bs a h

/-- Storing the next instruction keeps the canonical form. -/
theorem placeFetchWord_wf {s : State} (op : Word) (h : Memory.wf s.mem) :
    Memory.wf (placeFetchWord s op).mem := placeBytes_wf _ _ h

/-- Memory after construction is in canonical form. -/
theorem reset_mem_wf : Memory.wf State.reset.mem := by decide

/-! ## What a run of writes leaves in memory -/

/-- An index no byte is placed at keeps its reading. -/
theorem memGet_placeBytes_other (bs : List Byte) : ∀ (m : Memory) (a c : Nat),
    (∀ k < bs.length, effective (a + k) ≠ c) → memGet (placeBytes m a bs) c = memGet m c := by
  induction bs with
  | nil => intro _ _ _ _; rfl
  | cons b bs ih =>
    intro m a c h
    have h0 : effective a ≠ c := by simpa using h 0 (by simp)
    rw [placeBytes, ih _ _ _ (fun k hk => ?_), memGet_memSet_other _ _ (Ne.symm h0)]
    have := h (k + 1) (by simpa using hk)
    rwa [show a + 1 + k = a + (k + 1) by omega]

/-- The `k`-th byte placed is read back at its address, if at most 4096 bytes are placed. -/
theorem memGet_placeBytes (bs : List Byte) : ∀ (m : Memory) (a k : Nat) (h : k < bs.length),
    bs.length ≤ 4096 → memGet (placeBytes m a bs) (effective (a + k)) = bs[k] := by
  induction bs with
  | nil => intro _ _ _ h; simp at h
  | cons b bs ih =>
    intro m a k h hl
    simp only [List.length_cons] at h hl
    cases k with
    | zero =>
      rw [placeBytes, memGet_placeBytes_other bs _ _ _ (fun j hj => ?_)]
      · simp
      · simp only [effective_eq_mod]; omega
    | succ k =>
      rw [placeBytes, show a + (k + 1) = a + 1 + k by omega, ih _ _ k (by omega) (by omega)]
      rfl

/-- `MemRead` after `MemWrite` (R76): the byte written where the masked addresses agree, the old byte elsewhere. -/
theorem readByte_writeByte (s : State) (a c : Nat) (b : Byte) :
    readByte (writeByte s a b) c = if effective c = effective a then b else readByte s c := by
  simp [readByte, memGet_memSet]

/-- An address outside the written ones reads as before. -/
theorem readByte_writeBytes_other (s : State) (a c : Nat) (bs : List Byte)
    (h : ∀ k < bs.length, effective (a + k) ≠ effective c) :
    readByte (writeBytes s a bs) c = readByte s c := by
  simp only [readByte, writeBytes_mem]
  exact memGet_placeBytes_other bs s.mem a _ h

/-- The `k`-th byte written is read back. -/
theorem readByte_writeBytes (s : State) (a k : Nat) (bs : List Byte) (h : k < bs.length) (hl : bs.length ≤ 4096) :
    readByte (writeBytes s a bs) (a + k) = bs[k] := by
  simp only [readByte, writeBytes_mem]
  exact memGet_placeBytes bs s.mem a k h hl

/-- Everything a run of writes changes: memory and the glyph mark. -/
theorem writeBytes_eq (bs : List Byte) : ∀ (s : State) (a : Nat),
    writeBytes s a bs =
      { s with
        mem := placeBytes s.mem a bs
        faulted := s.faulted || (List.range bs.length).any (fun k => marksGlyphWrite (a + k)) } := by
  induction bs with
  | nil => intro s a; simp [writeBytes, placeBytes]
  | cons b bs ih =>
    intro s a
    rw [writeBytes, ih]
    simp [writeByte, placeBytes, List.range_succ_eq_map, List.any_map, Function.comp_def,
      Bool.or_assoc, Nat.add_assoc, Nat.add_comm 1]

end Sys2Proof.Machine
end

