-- ==== Sys2Proof/Laws/Ops.lean ====
section
/-! SUPPORT. One lemma per shared operation: everything a skip, a push, a pop, a flag-last write, a register range, a key
operand and a fetch can do. -/

namespace Sys2Proof.Machine

variable (s : State)

/-! ## Skips -/

/-- Everything a skip changes: `pc`. -/
theorem skipIf_eq (c : Bool) : skipIf c s = setPc s (if c then s.pc + 2#16 else s.pc) := by
  cases c <;> rfl

/-! ## The call stack -/

/-- A push below capacity (R154). -/
theorem pushReturn_below {s : State} (ret : Word) (h : s.sp.val < 15) :
    pushReturn s ret = setStack (setSp s ⟨s.sp.val + 1, by omega⟩) ⟨s.sp.val + 1, by omega⟩ ret := by
  simp [pushReturn, h]

/-- A push at capacity, by `STACK_OVERFLOW` (R154). -/
theorem pushReturn_full {s : State} (ret : Word) (h : ¬ s.sp.val < 15) :
    pushReturn s ret = match overflowMode with
      | .overwriteTop => setStack s 15 ret
      | .dropPush => s := by
  rcases hm : overflowMode with _ | _ <;> simp [pushReturn, h, hm]

/-- A push changes `sp` and `stack` and nothing else. -/
theorem pushReturn_frame (ret : Word) :
    pushReturn s ret = { s with sp := (pushReturn s ret).sp, stack := (pushReturn s ret).stack } := by
  unfold pushReturn
  split
  · rfl
  · split <;> rfl

/-- A push increments `sp`, saturating at 15, whatever the parameter (R154, R38). -/
theorem pushReturn_sp (ret : Word) : (pushReturn s ret).sp.val = min (s.sp.val + 1) 15 := by
  have := s.sp.isLt
  by_cases h : s.sp.val < 15
  · rw [pushReturn_below ret h]
    show s.sp.val + 1 = _
    omega
  · have hs : (pushReturn s ret).sp = s.sp := by
      rw [pushReturn_full ret h]; rcases overflowMode with _ | _ <;> rfl
    rw [hs]; omega

/-- No push writes `stack[0]` (R40). -/
theorem getStack_pushReturn_zero (ret : Word) : getStack (pushReturn s ret) 0 = getStack s 0 := by
  by_cases h : s.sp.val < 15
  · rw [pushReturn_below ret h, getStack_setStack_other]
    · rfl
    · intro e; simpa using congrArg Fin.val e
  · rw [pushReturn_full ret h]
    split
    · exact getStack_setStack_other s ret (by decide)
    · rfl

/-- A pop above depth 0 (R152). -/
theorem popReturn_nonempty {s : State} (h : s.sp.val ≠ 0) :
    popReturn s = setSp (setPc s (getStack s s.sp)) ⟨s.sp.val - 1, by omega⟩ := by
  simp [popReturn, h]

/-- A pop at depth 0, by `STACK_UNDERFLOW` (R152). -/
theorem popReturn_empty {s : State} (h : s.sp = 0) :
    popReturn s = match underflowMode with
      | .readSlot0 => setPc s (getStack s 0)
      | .dropPop => s := by
  rcases hm : underflowMode with _ | _
  · simp [popReturn, h, hm, setSp, setPc]
  · simp [popReturn, h, hm]

/-- A pop decrements `sp`, saturating at 0, whatever the parameter (R152, R38). -/
theorem popReturn_sp : (popReturn s).sp.val = s.sp.val - 1 := by
  by_cases h : s.sp.val = 0
  · have hs : (popReturn s).sp = s.sp := by
      rw [popReturn_empty (Fin.ext h)]; rcases underflowMode with _ | _ <;> rfl
    rw [hs]; omega
  · rw [popReturn_nonempty h]
    rfl

/-- A pop changes `pc` and `sp` and nothing else. -/
theorem popReturn_frame : popReturn s = { s with pc := (popReturn s).pc, sp := (popReturn s).sp } := by
  unfold popReturn
  split <;> rfl

/-! ## Flags -/

/-- The flag wins in VF (R137). -/
@[simp] theorem getV_writeResultThenFlag_flag (x : RegIx) (r f : Byte) :
    getV (writeResultThenFlag s x r f) flagReg = f := by
  simp [writeResultThenFlag]

/-- The result stands in `V[x]` when `x` is not VF. -/
theorem getV_writeResultThenFlag_result {x : RegIx} (r f : Byte) (h : x ≠ flagReg) :
    getV (writeResultThenFlag s x r f) x = r := by
  simp [writeResultThenFlag, getV_setV_other _ _ h]

/-- A flag-last write changes `V[x]` and VF and nothing else. -/
theorem getV_writeResultThenFlag_other {x y : RegIx} (r f : Byte) (hx : y ≠ x) (hf : y ≠ flagReg) :
    getV (writeResultThenFlag s x r f) y = getV s y := by
  simp [writeResultThenFlag, getV_setV_other _ _ hf, getV_setV_other _ _ hx]

/-- A flag-last write is an update of the register file. -/
theorem writeResultThenFlag_frame (x : RegIx) (r f : Byte) :
    writeResultThenFlag s x r f = { s with v := (writeResultThenFlag s x r f).v } := rfl

/-! ## Register ranges -/

/-- The registers of a range, by position (R205). -/
@[simp] theorem regsUpTo_length (x : RegIx) : (regsUpTo s x).length = x.toNat + 1 := by
  simp [regsUpTo]

theorem regsUpTo_get (x : RegIx) (k : Nat) (h : k < (regsUpTo s x).length) :
    (regsUpTo s x)[k] = getV s (regIx k) := by
  simp [regsUpTo]

theorem regIx_injOn {j k : Nat} (hj : j < 16) (hk : k < 16) (h : regIx j = regIx k) : j = k := by
  have := congrArg BitVec.toNat h
  simp only [regIx, BitVec.toNat_ofNat] at this
  omega

@[simp] theorem regIx_toNat (x : RegIx) : regIx x.toNat = x := by
  simp [regIx]

/-- Loading `n` registers changes the register file alone, and each of them reads the byte of its
address in the memory before (R206). -/
theorem loadRegs_prefix (n : Nat) (hn : n ≤ 16) :
    ∃ v : Vector Byte 16,
      (List.range n).foldl (fun t k => setV t (regIx k) (readByte t (indexed t k))) s = { s with v := v } ∧
      ∀ r : RegIx, getV { s with v := v } r =
        if r.toNat < n then readByte s (indexed s r.toNat) else getV s r := by
  induction n with
  | zero => exact ⟨s.v, rfl, fun r => by simp⟩
  | succ n ih =>
    obtain ⟨v, hv, hr⟩ := ih (by omega)
    rw [List.range_succ, List.foldl_append, hv]
    refine ⟨(setV { s with v := v } (regIx n) (readByte s (indexed s n))).v, rfl, fun r => ?_⟩
    show getV (setV { s with v := v } (regIx n) (readByte s (indexed s n))) r = _
    rw [getV_setV, hr]
    have hlt := r.isLt
    by_cases h : r = regIx n
    · have hn' : r.toNat = n := by rw [h]; simp [regIx]; omega
      simp [h ▸ hn', h]
    · have hn' : r.toNat ≠ n := fun e => h (by rw [← e, regIx_toNat])
      rw [if_neg h]
      by_cases hrn : r.toNat < n
      · rw [if_pos hrn, if_pos (by omega)]
      · rw [if_neg hrn, if_neg (by omega)]

/-- Everything Fx65 does (R206). -/
theorem loadRegs_spec (x : RegIx) :
    loadRegs s x = { s with v := (loadRegs s x).v } ∧
      ∀ r : RegIx, getV (loadRegs s x) r =
        if r.toNat ≤ x.toNat then readByte s (indexed s r.toNat) else getV s r := by
  obtain ⟨v, hv, hr⟩ := loadRegs_prefix s (x.toNat + 1) (by have := x.isLt; omega)
  have hl : loadRegs s x = { s with v := v } := hv
  refine ⟨by rw [hl], fun r => ?_⟩
  rw [hl, hr]
  simp only [Nat.lt_succ_iff]

/-! ## Keys -/

/-- A key operand inside the latch reads it and draws nothing (R240). -/
theorem keyOperand_inside {k : Byte} (h : k.toNat < 16) :
    keyOperand s k = getKey s ⟨k.toNat, h⟩ ∧ keyOperandState s k = s := by
  simp [keyOperand, keyOperandState, h]

/-- A key operand above 15 is one draw (R240). -/
theorem keyOperand_outside {k : Byte} (h : 16 ≤ k.toNat) :
    keyOperand s k = keyOutOfRange s ∧ keyOperandState s k = countKeyDraw s := by
  have : ¬ k.toNat < 16 := by omega
  simp [keyOperand, keyOperandState, this]

/-- Reading a key operand changes at most the draw counter. -/
theorem keyOperandState_frame (k : Byte) :
    keyOperandState s k = { s with keyDraws := (keyOperandState s k).keyDraws } := by
  unfold keyOperandState
  split <;> rfl

/-- No key is found exactly when none is pressed (R244). -/
theorem firstKey_none : firstKey s = none ↔ ∀ k, getKey s k = false := by
  simp [firstKey]

/-- The key found is pressed (R244). -/
theorem firstKey_pressed {k : Fin 16} (h : firstKey s = some k) : getKey s k = true :=
  List.find?_some h

/-! ## Fetch -/

/-- A fetch reads the two bytes at `pc`, the first as the high byte (R131). -/
theorem fetchWord_toNat :
    (fetchWord s).toNat = (readByte s s.pc.toNat).toNat * 256 + (readByte s (s.pc.toNat + 1)).toNat := by
  have := (readByte s (s.pc.toNat + 1)).isLt
  simp only [fetchWord, wordOfBytes, BitVec.toNat_append, Nat.shiftLeft_eq]
  rw [← Nat.shiftLeft_eq, ← Nat.shiftLeft_add_eq_or_of_lt this, Nat.shiftLeft_eq]

/-- A word of its two bytes. -/
theorem wordOfBytes_high_low (w : Word) : wordOfBytes (highByte w) (lowByte w) = w := by
  apply BitVec.eq_of_getLsbD_eq
  intro k hk
  simp only [wordOfBytes, highByte, lowByte, BitVec.getLsbD_append, BitVec.getLsbD_extractLsb']
  by_cases h : k < 8
  · simp [h]
  · have h1 : k - 8 < 8 := by omega
    have h2 : 8 + (k - 8) = k := by omega
    simp [h, h1, h2]

/-- The next fetch reads the word that was placed for it. -/
@[simp] theorem fetchWord_placeFetchWord (op : Word) : fetchWord (placeFetchWord s op) = op := by
  have h0 := readByte_writeBytes s s.pc.toNat 0 [highByte op, lowByte op] (by simp) (by simp)
  have h1 := readByte_writeBytes s s.pc.toNat 1 [highByte op, lowByte op] (by simp) (by simp)
  simp only [readByte, writeBytes_mem, Nat.add_zero] at h0 h1
  simp only [fetchWord, placeFetchWord, readByte, h0, h1]
  exact wordOfBytes_high_low op

end Sys2Proof.Machine
end

