-- ==== Sys2Proof/Laws/Display.lean ====
section
/-! SUPPORT. Pixel laws of the framebuffer operations (44_display.md). -/

namespace Sys2Proof.Machine

/-- A cleared framebuffer has no lit pixel (R221). -/
@[simp] theorem pixel_clearFb (px : Fin 64) (py : Fin 32) : pixel clearFb px py = false := by
  simp [pixel, clearFb]

/-- Inverting a pixel changes that pixel and no other. -/
theorem pixel_flipPixel (fb : Framebuffer) (px qx : Fin 64) (py qy : Fin 32) :
    pixel (flipPixel fb px py) qx qy = (pixel fb qx qy != decide (qx = px ∧ qy = py)) := by
  by_cases hy : qy = py
  · subst hy
    by_cases hx : qx = px
    · subst hx; simp [pixel, flipPixel]
    · have : px.val ≠ qx.val := fun e => hx (Fin.ext e.symm)
      simp [pixel, flipPixel, this, hx]
  · have : py.val ≠ qy.val := fun e => hy (Fin.ext e.symm)
    simp [pixel, flipPixel, this, hy]

/-- One composed bit, pixel by pixel (R222). -/
theorem pixel_plotBit (bit : Bool) (px qx : Fin 64) (py qy : Fin 32) (c : Framebuffer × Bool) :
    pixel (plotBit bit px py c).1 qx qy = (pixel c.1 qx qy != (bit && decide (qx = px ∧ qy = py))) := by
  cases bit
  · simp [plotBit]
  · simp [plotBit, pixel_flipPixel]

/-- One composed bit's collision flag: set by a lit pixel, never cleared (R223). -/
theorem collision_plotBit (bit : Bool) (px : Fin 64) (py : Fin 32) (c : Framebuffer × Bool) :
    (plotBit bit px py c).2 = (c.2 || (bit && pixel c.1 px py)) := by
  cases bit <;> simp [plotBit]

/-- A draw changes the framebuffer and VF and nothing else (R222). -/
theorem execDrw_frame (x y : RegIx) (n : Nibble) (s : State) :
    ∃ fb b, execDrw x y n s = .next (setV (setFb s fb) flagReg b) := ⟨_, _, rfl⟩

end Sys2Proof.Machine
end

