-- ==== Sys2Proof/Laws/HostActions.lean ====
section
/-! SUPPORT. What each host action can do (60_exceptions.md R270-R274, 70_reset_and_hazards.md R292). -/

namespace Sys2Proof.Machine

/-- A count down is one less, clamped at 0 (R270). -/
theorem countDown_toNat (b : Byte) : (countDown b).toNat = b.toNat - 1 := by
  unfold countDown
  split
  · next h => subst h; rfl
  · next h =>
    have h0 : b.toNat ≠ 0 := fun e => h (BitVec.eq_of_toNat_eq e)
    have hb := b.isLt
    rw [BitVec.toNat_sub]
    simp only [BitVec.toNat_ofNat]
    omega

/-- A load that is accepted changes memory alone (R292). -/
theorem loadProgram_next {image : List Byte} {s t : State} (h : loadProgram image s = .next t) :
    image.length ≤ maxProgram ∧ t = { s with mem := placeBytes s.mem programBase image } := by
  unfold loadProgram at h
  split at h
  · next hw => exact ⟨of_decide_eq_true hw, (Host.Outcome.next.inj h).symm⟩
  · cases h

/-- A key set that is accepted changes the latch alone (R272). -/
theorem setKey_next {k : Nat} {pressed : Bool} {s t : State} (h : setKey k pressed s = .next t) :
    ∃ hk : k < 16, t = { s with key := s.key.set k pressed } := by
  unfold setKey at h
  split at h
  · next hk => exact ⟨hk, (Host.Outcome.next.inj h).symm⟩
  · cases h

/-- A state action's answer in a phase is a next session exactly when it is a next state. -/
theorem inPhase_next {p : BootPhase} {r : Host.Outcome State Fault Refusal} {ss : Session}
    (h : inPhase p r = .next ss) : r = .next ss.state ∧ ss.phase = p := by
  cases r <;> simp [inPhase] at h
  subst h; exact ⟨rfl, rfl⟩

/-- A query never changes the session (R273). -/
theorem afterQuery_next {ss ss' : Session} {r : Host.Outcome Bool Fault Refusal}
    (h : afterQuery ss r = .next ss') : ss' = ss := by
  cases r <;> simp [afterQuery] at h
  exact h.symm

end Sys2Proof.Machine
end

