-- ==== Sys2Proof/Laws/Step.lean ====
section
/-! SUPPORT. What a step can do: the two cases of R138. -/

namespace Sys2Proof.Machine

/-- A step is the execution of the decoded instruction after the pc advance, or a report (R138). -/
theorem step_cases {s t : State} (h : step s = .next t) :
    (∃ i, decodeWord (fetchWord s) = some i ∧ exec i (advancePc s) = .next t) ∨
    (decodeWord (fetchWord s) = none ∧ t = reportUnknown (advancePc s) (fetchWord s) s.pc) := by
  unfold step at h
  split at h
  · next i hi => exact .inl ⟨i, hi, h⟩
  · next hn => exact .inr ⟨hn, (Host.Outcome.next.inj h).symm⟩

/-- A step on a placed word runs the instruction of that word. -/
theorem step_placeFetchWord {s : State} {op : Word} {i : Instr} (h : decodeWord op = some i) :
    step (placeFetchWord s op) = exec i (advancePc (placeFetchWord s op)) := by
  simp [step, h]

end Sys2Proof.Machine
end

