-- ==== Sys2Proof/Laws/Frame.lean ====
section
/-! SUPPORT. The frame of each shared operation, in the terms of Sys2Proof/Safety.lean. -/

namespace Sys2Proof.Safety

open Sys2Proof.Machine

/-- Frames compose. -/
theorem onlyChanges_trans {ps : List Part} {s t u : State} (h : onlyChanges ps s t) (h' : onlyChanges ps t u) :
    onlyChanges ps s u := by
  intro p hp
  have a := h p hp
  have b := h' p hp
  cases p
  case stack => exact ⟨b.1.trans a.1, fun j => (b.2 j).trans (a.2 j)⟩
  all_goals first
    | exact Eq.trans b a
    | exact fun q => (b q).trans (a q)
    | exact fun px py => (b px py).trans (a px py)

/-- A state with another register file changes V alone. -/
theorem onlyChanges_v (s : State) (v : Vector Byte 16) : onlyChanges [.v] s { s with v := v } := by
  intro p hp
  cases p <;> first | exact absurd (by decide) hp | (intro _; rfl) | (exact ⟨rfl, fun _ => rfl⟩) | rfl | (intro _ _; rfl)

/-- A register write changes V alone. -/
theorem onlyChanges_setV (s : State) (x : RegIx) (b : Byte) : onlyChanges [.v] s (setV s x b) :=
  onlyChanges_v s _

/-- A flag-last write changes V alone (R137). -/
theorem onlyChanges_writeResultThenFlag (s : State) (x : RegIx) (r f : Byte) :
    onlyChanges [.v] s (writeResultThenFlag s x r f) :=
  onlyChanges_v s _

/-- A register write changes that register alone. -/
theorem registersKept_setV (s : State) (x : RegIx) (b : Byte) : registersKeptExcept [x] s (setV s x b) :=
  fun _ hr => getV_setV_other s b (by simpa using hr)

/-- A flag-last write changes `V[x]` and VF alone (R137). -/
theorem registersKept_writeResultThenFlag (s : State) (x : RegIx) (r f : Byte) :
    registersKeptExcept [x, flagReg] s (writeResultThenFlag s x r f) := by
  intro q hq
  simp only [List.mem_cons, List.not_mem_nil, or_false, not_or] at hq
  exact getV_writeResultThenFlag_other s r f hq.1 hq.2

/-- A `pc` write changes `pc` alone. -/
theorem onlyChanges_setPc (s : State) (w : Word) : onlyChanges [.pc] s (setPc s w) := by
  intro p hp
  cases p <;> first | exact absurd (by decide) hp | (intro _; rfl) | (exact ⟨rfl, fun _ => rfl⟩) | rfl | (intro _ _; rfl)

/-- A skip changes `pc` alone (R151). -/
theorem onlyChanges_skipIf (c : Bool) (s : State) : onlyChanges [.pc] s (skipIf c s) := by
  rw [skipIf_eq]; exact onlyChanges_setPc s _

/-- An `I` write changes `I` alone. -/
theorem onlyChanges_setI (s : State) (w : Word) : onlyChanges [.i] s (setI s w) := by
  intro p hp
  cases p <;> first | exact absurd (by decide) hp | (intro _; rfl) | (exact ⟨rfl, fun _ => rfl⟩) | rfl | (intro _ _; rfl)

/-- A framebuffer write changes the display alone. -/
theorem onlyChanges_setFb (s : State) (fb : Framebuffer) : onlyChanges [.display] s (setFb s fb) := by
  intro p hp
  cases p <;> first | exact absurd (by decide) hp | (intro _; rfl) | (exact ⟨rfl, fun _ => rfl⟩) | rfl

/-- A run of byte writes changes memory and the glyph mark alone. -/
theorem onlyChanges_writeBytes (s : State) (a : Nat) (bs : List Byte) :
    onlyChanges [.memory, .faulted] s (writeBytes s a bs) := by
  rw [writeBytes_eq]
  intro p hp
  cases p <;> first | exact absurd (by decide) hp | (intro _; rfl) | (exact ⟨rfl, fun _ => rfl⟩) | rfl | (intro _ _; rfl)

end Sys2Proof.Safety
end

