-- ==== Sys2Proof/Laws/PerInstr.lean ====
section
/-! SUPPORT. The per-instruction family RowPattern: an instruction is well-formed and its word belongs to its own row of
the opcode map (30_encoding.md R105). -/

namespace Sys2Proof.Laws.RowPattern

/-- The instruction is well-formed and `(encode i & mask) == match` for its row (R105). -/
def Statement (i : Instr) : Prop := i.wellFormed = true ∧ rowMatches (encode i) (rowOf i) = true

/-- A word of format A is in the row of its group. -/
theorem group_of_formatA (m : String) (g : Nibble) (nnn : Addr12) (p : Word)
    (hp : formatXY g 0x0#4 0x0#4 0x0#4 = p) : rowMatches (formatA g nnn) ⟨m, 0xF000#16, p⟩ = true := by
  simp [rowMatches, and_maskGroup, hp]

/-- A word of format XK is in the row of its group. -/
theorem group_of_formatXK (m : String) (g : Nibble) (x : RegIx) (kk : Byte) (p : Word)
    (hp : formatXY g 0x0#4 0x0#4 0x0#4 = p) : rowMatches (formatXK g x kk) ⟨m, 0xF000#16, p⟩ = true := by
  simp [rowMatches, and_maskGroup, hp]

/-- A word of format XYN is in the row of its group. -/
theorem group_of_formatXYN (m : String) (g : Nibble) (x y : RegIx) (n : Nibble) (p : Word)
    (hp : formatXY g 0x0#4 0x0#4 0x0#4 = p) : rowMatches (formatXY g x y n) ⟨m, 0xF000#16, p⟩ = true := by
  simp [rowMatches, and_maskGroup, hp]

/-- A word of format XY is in the row of its group and low nibble. -/
theorem nibble_of_formatXY (m : String) (g : Nibble) (x y : RegIx) (n : Nibble) (p : Word)
    (hp : formatXY g 0x0#4 0x0#4 n = p) : rowMatches (formatXY g x y n) ⟨m, 0xF00F#16, p⟩ = true := by
  simp [rowMatches, and_maskNibble, hp]

/-- A word of format XS is in the row of its group and low byte. -/
theorem byte_of_formatXS (m : String) (g : Nibble) (x : RegIx) (kk : Byte) (p : Word)
    (hp : formatXK g 0x0#4 kk = p) : rowMatches (formatXK g x kk) ⟨m, 0xF0FF#16, p⟩ = true := by
  simp [rowMatches, and_maskByte, hp]

theorem cls : Statement .cls := ⟨rfl, by decide⟩

theorem ret : Statement .ret := ⟨rfl, by decide⟩

theorem jp (nnn : Addr12) : Statement (.jp nnn) :=
  ⟨instr_wellFormed _, group_of_formatA _ _ _ _ (by decide)⟩

theorem call (nnn : Addr12) : Statement (.call nnn) :=
  ⟨instr_wellFormed _, group_of_formatA _ _ _ _ (by decide)⟩

theorem seImm (x : RegIx) (kk : Byte) : Statement (.seImm x kk) :=
  ⟨instr_wellFormed _, group_of_formatXK _ _ _ _ _ (by decide)⟩

theorem sneImm (x : RegIx) (kk : Byte) : Statement (.sneImm x kk) :=
  ⟨instr_wellFormed _, group_of_formatXK _ _ _ _ _ (by decide)⟩

theorem seReg (x y : RegIx) : Statement (.seReg x y) :=
  ⟨instr_wellFormed _, nibble_of_formatXY _ _ _ _ _ _ (by decide)⟩

theorem ldImm (x : RegIx) (kk : Byte) : Statement (.ldImm x kk) :=
  ⟨instr_wellFormed _, group_of_formatXK _ _ _ _ _ (by decide)⟩

theorem addImm (x : RegIx) (kk : Byte) : Statement (.addImm x kk) :=
  ⟨instr_wellFormed _, group_of_formatXK _ _ _ _ _ (by decide)⟩

theorem ldReg (x y : RegIx) : Statement (.ldReg x y) :=
  ⟨instr_wellFormed _, nibble_of_formatXY _ _ _ _ _ _ (by decide)⟩

theorem or (x y : RegIx) : Statement (.or x y) :=
  ⟨instr_wellFormed _, nibble_of_formatXY _ _ _ _ _ _ (by decide)⟩

theorem and (x y : RegIx) : Statement (.and x y) :=
  ⟨instr_wellFormed _, nibble_of_formatXY _ _ _ _ _ _ (by decide)⟩

theorem xor (x y : RegIx) : Statement (.xor x y) :=
  ⟨instr_wellFormed _, nibble_of_formatXY _ _ _ _ _ _ (by decide)⟩

theorem addReg (x y : RegIx) : Statement (.addReg x y) :=
  ⟨instr_wellFormed _, nibble_of_formatXY _ _ _ _ _ _ (by decide)⟩

theorem sub (x y : RegIx) : Statement (.sub x y) :=
  ⟨instr_wellFormed _, nibble_of_formatXY _ _ _ _ _ _ (by decide)⟩

theorem shr (x y : RegIx) : Statement (.shr x y) :=
  ⟨instr_wellFormed _, nibble_of_formatXY _ _ _ _ _ _ (by decide)⟩

theorem subn (x y : RegIx) : Statement (.subn x y) :=
  ⟨instr_wellFormed _, nibble_of_formatXY _ _ _ _ _ _ (by decide)⟩

theorem shl (x y : RegIx) : Statement (.shl x y) :=
  ⟨instr_wellFormed _, nibble_of_formatXY _ _ _ _ _ _ (by decide)⟩

theorem sneReg (x y : RegIx) : Statement (.sneReg x y) :=
  ⟨instr_wellFormed _, nibble_of_formatXY _ _ _ _ _ _ (by decide)⟩

theorem ldI (nnn : Addr12) : Statement (.ldI nnn) :=
  ⟨instr_wellFormed _, group_of_formatA _ _ _ _ (by decide)⟩

theorem jpV0 (nnn : Addr12) : Statement (.jpV0 nnn) :=
  ⟨instr_wellFormed _, group_of_formatA _ _ _ _ (by decide)⟩

theorem rnd (x : RegIx) (kk : Byte) : Statement (.rnd x kk) :=
  ⟨instr_wellFormed _, group_of_formatXK _ _ _ _ _ (by decide)⟩

theorem drw (x y : RegIx) (n : Nibble) : Statement (.drw x y n) :=
  ⟨instr_wellFormed _, group_of_formatXYN _ _ _ _ _ _ (by decide)⟩

theorem skp (x : RegIx) : Statement (.skp x) :=
  ⟨instr_wellFormed _, byte_of_formatXS _ _ _ _ _ (by decide)⟩

theorem sknp (x : RegIx) : Statement (.sknp x) :=
  ⟨instr_wellFormed _, byte_of_formatXS _ _ _ _ _ (by decide)⟩

theorem ldVxDT (x : RegIx) : Statement (.ldVxDT x) :=
  ⟨instr_wellFormed _, byte_of_formatXS _ _ _ _ _ (by decide)⟩

theorem ldVxK (x : RegIx) : Statement (.ldVxK x) :=
  ⟨instr_wellFormed _, byte_of_formatXS _ _ _ _ _ (by decide)⟩

theorem ldDTVx (x : RegIx) : Statement (.ldDTVx x) :=
  ⟨instr_wellFormed _, byte_of_formatXS _ _ _ _ _ (by decide)⟩

theorem ldSTVx (x : RegIx) : Statement (.ldSTVx x) :=
  ⟨instr_wellFormed _, byte_of_formatXS _ _ _ _ _ (by decide)⟩

theorem addI (x : RegIx) : Statement (.addI x) :=
  ⟨instr_wellFormed _, byte_of_formatXS _ _ _ _ _ (by decide)⟩

theorem ldF (x : RegIx) : Statement (.ldF x) :=
  ⟨instr_wellFormed _, byte_of_formatXS _ _ _ _ _ (by decide)⟩

theorem ldB (x : RegIx) : Statement (.ldB x) :=
  ⟨instr_wellFormed _, byte_of_formatXS _ _ _ _ _ (by decide)⟩

theorem ldMemVx (x : RegIx) : Statement (.ldMemVx x) :=
  ⟨instr_wellFormed _, byte_of_formatXS _ _ _ _ _ (by decide)⟩

theorem ldVxMem (x : RegIx) : Statement (.ldVxMem x) :=
  ⟨instr_wellFormed _, byte_of_formatXS _ _ _ _ _ (by decide)⟩

end Sys2Proof.Laws.RowPattern
end

