-- ==== Sys2Proof/Tests/Slice0.lean ====
section
/-! SUPPORT. Tests: every constructor's decoding by a word written out from 30_encoding.md R105, well-formedness smoke tests,
one-step tests with the expected values of spec/95_test_vectors.md, and one witness per statement that has hypotheses. -/

namespace Sys2Proof.Tests

open Sys2Proof.Machine Sys2Proof.Safety

/-! ## Helpers -/

/-- What a result's next state shows. -/
def look {α : Type} (f : State → α) : Result → Option α
  | .next t => some (f t)
  | .fault _ => none
  | .refused _ => none

/-- The reset state with an opcode placed at `pc`. -/
def ready (w : Nat) : State := State.reset.withFetchWord 16 w

/-- The reset state with another `pc` and an opcode placed there. -/
def readyAt (pc : Word) (w : Nat) : State := (setPc State.reset pc).withFetchWord 16 w

/-- `I` set, and bytes placed from there. -/
def withI (s : State) (i : Word) (bs : List Byte) : State :=
  { setI s i with mem := placeBytes s.mem i.toNat bs }

/-- Some registers set. -/
def withV (s : State) (rs : List (RegIx × Byte)) : State := rs.foldl (fun t r => setV t r.1 r.2) s

/-- Some keys pressed. -/
def withKeys (s : State) (ks : List (Fin 16)) : State :=
  { s with key := ks.foldl (fun key k => key.set k.val true k.isLt) s.key }

/-- Some pixels lit. -/
def withLit (s : State) (ps : List (Fin 64 × Fin 32)) : State :=
  setFb s (ps.foldl (fun fb p => if pixel fb p.1 p.2 then fb else flipPixel fb p.1 p.2) clearFb)

/-- A return address in a slot, and the stack pointer there. -/
def withStack (s : State) (j : Fin 16) (w : Word) : State := setSp (setStack s j w) j

/-! ## Decoding: words written out bit by bit from R105 -/

theorem test_decode_display : decodeWord 0b0000000011100000#16 = some .cls ∧
    decodeWord 0b1101_0001_0010_0101#16 = some (.drw 0x1#4 0x2#4 0x5#4) := by decide

theorem test_decode_control : decodeWord 0b0000000011101110#16 = some .ret ∧
    decodeWord 0b0001_101010111100#16 = some (.jp 0xABC#12) ∧
    decodeWord 0b0010_101010111100#16 = some (.call 0xABC#12) ∧
    decodeWord 0b0011_0111_11001000#16 = some (.seImm 0x7#4 0xC8#8) ∧
    decodeWord 0b0100_0111_11001000#16 = some (.sneImm 0x7#4 0xC8#8) ∧
    decodeWord 0b0101_0111_0011_0000#16 = some (.seReg 0x7#4 0x3#4) ∧
    decodeWord 0b1001_0111_0011_0000#16 = some (.sneReg 0x7#4 0x3#4) ∧
    decodeWord 0b1011_101010111100#16 = some (.jpV0 0xABC#12) := by decide

theorem test_decode_alu : decodeWord 0b0110_0111_11001000#16 = some (.ldImm 0x7#4 0xC8#8) ∧
    decodeWord 0b0111_0111_11001000#16 = some (.addImm 0x7#4 0xC8#8) ∧
    decodeWord 0b1000_0111_0011_0000#16 = some (.ldReg 0x7#4 0x3#4) ∧
    decodeWord 0b1000_0111_0011_0001#16 = some (.or 0x7#4 0x3#4) ∧
    decodeWord 0b1000_0111_0011_0010#16 = some (.and 0x7#4 0x3#4) ∧
    decodeWord 0b1000_0111_0011_0011#16 = some (.xor 0x7#4 0x3#4) ∧
    decodeWord 0b1000_0111_0011_0100#16 = some (.addReg 0x7#4 0x3#4) ∧
    decodeWord 0b1000_0111_0011_0101#16 = some (.sub 0x7#4 0x3#4) ∧
    decodeWord 0b1000_0111_0011_0110#16 = some (.shr 0x7#4 0x3#4) ∧
    decodeWord 0b1000_0111_0011_0111#16 = some (.subn 0x7#4 0x3#4) ∧
    decodeWord 0b1000_0111_0011_1110#16 = some (.shl 0x7#4 0x3#4) ∧
    decodeWord 0b1100_0111_11001000#16 = some (.rnd 0x7#4 0xC8#8) := by decide

theorem test_decode_index_memory : decodeWord 0b1010_101010111100#16 = some (.ldI 0xABC#12) ∧
    decodeWord 0b1111_0111_00011110#16 = some (.addI 0x7#4) ∧
    decodeWord 0b1111_0111_00101001#16 = some (.ldF 0x7#4) ∧
    decodeWord 0b1111_0111_00110011#16 = some (.ldB 0x7#4) ∧
    decodeWord 0b1111_0111_01010101#16 = some (.ldMemVx 0x7#4) ∧
    decodeWord 0b1111_0111_01100101#16 = some (.ldVxMem 0x7#4) := by decide

theorem test_decode_input_timers : decodeWord 0b1110_0111_10011110#16 = some (.skp 0x7#4) ∧
    decodeWord 0b1110_0111_10100001#16 = some (.sknp 0x7#4) ∧
    decodeWord 0b1111_0111_00000111#16 = some (.ldVxDT 0x7#4) ∧
    decodeWord 0b1111_0111_00001010#16 = some (.ldVxK 0x7#4) ∧
    decodeWord 0b1111_0111_00010101#16 = some (.ldDTVx 0x7#4) ∧
    decodeWord 0b1111_0111_00011000#16 = some (.ldSTVx 0x7#4) := by decide

/-- One word of each unrecognised group (R107), and the rest of 8xyn. -/
theorem test_decode_unrecognised : decodeWord 0x0123#16 = none ∧ decodeWord 0x5011#16 = none ∧
    decodeWord 0x8008#16 = none ∧ decodeWord 0x801F#16 = none ∧ decodeWord 0x800D#16 = none ∧
    decodeWord 0x9011#16 = none ∧ decodeWord 0xE09F#16 = none ∧ decodeWord 0xFFFF#16 = none := by decide

/-- Bytes in memory order, high byte first (R74, R100); too few bytes are no opcode. -/
theorem test_decode_bytes : decode [0x6A#8, 0xC8#8, 0x12#8] = .instr (.ldImm 0xA#4 0xC8#8) [0x12#8] ∧
    decode [0x01#8, 0x23#8] = .unrecognised 0x0123#16 [] ∧ decode [0x6A#8] = .tooShort := by decide

theorem test_table_word : decodeTableWord 16 0xF065 = some (.ldVxMem 0x0#4) ∧
    decodeTableWord 16 0x8006 = some (.shr 0x0#4 0x0#4) ∧ decodeTableWord 16 0x0000 = none := by decide

/-! ## Well-formedness -/

/-- An ill-formed number for each field width is refused: a register 16, a byte 256, an address 4096. -/
theorem test_illformed_operands : operandFits 4 16 = false ∧ operandFits 8 256 = false ∧
    operandFits 12 4096 = false ∧ operandFits 4 15 = true := by decide

/-- An image of 3585 bytes is refused and one of 3584 accepted (V142, V143). -/
theorem test_illformed_image : imageWellFormed (List.replicate 3585 0#8) = false ∧
    imageWellFormed (List.replicate 3584 0#8) = true := by
  rw [imageWellFormed, imageWellFormed, List.length_replicate, List.length_replicate]; decide

theorem test_illformed_key : keyIndexWellFormed 16 = false ∧ keyIndexWellFormed 15 = true := by decide

/-! ## One step: fetch and the step (V2, V3, V5, V6) -/

/-- V2: the second byte is fetched from 0x000 after 0xFFF, and `pc` is not masked. -/
theorem test_fetch_wraps : look (fun t => (getV t 0x0#4, t.pc))
    (step { setPc State.reset 0x0FFF#16 with mem := [(0x000, 0x42#8), (0xFFF, 0x60#8)] }) =
      some (0x42#8, 0x1001#16) := by decide

/-- V3: a `pc` above 0x0FFF fetches from the masked addresses. -/
theorem test_fetch_masks : look (fun t => (getV t 0xA#4, t.pc))
    (step { setPc State.reset 0x10FE#16 with mem := [(0x0FE, 0x6A#8), (0x0FF, 0x01#8)] }) =
      some (0x01#8, 0x1100#16) := by decide

/-- V5. -/
theorem test_unrecognised : look (fun t => (t.pc, t.diag)) (step (ready 0xFFFF)) =
    some (0x202#16, [⟨0xFFFF#16, 0x200#16⟩]) := by decide

/-! ## One step: control transfer -/

/-- V10. -/
theorem test_ret : look (fun t => (t.pc, t.sp)) (step (withStack (readyAt 0x21A#16 0x00EE) 1 0x0206#16)) =
    some (0x0206#16, 0) := by decide

/-- V11. -/
theorem test_ret_deepest : look (fun t => (t.pc, t.sp)) (step (withStack (ready 0x00EE) 15 0x0ABC#16)) =
    some (0x0ABC#16, 14) := by decide

/-- V14. -/
theorem test_jp : look (·.pc) (step (ready 0x1300)) = some 0x0300#16 := by decide

/-- W4: the source's call example, from the execute phase on (`pc = 23` there). -/
theorem test_call : look (fun t => (t.sp, getStack t 1, t.pc))
    (exec (.call 0x300#12) (setPc State.reset 0x0017#16)) = some (1, 0x0017#16, 0x0300#16) := by decide

/-- V16. -/
theorem test_call_last_slot : look (fun t => (t.sp, getStack t 15, t.pc)) (step (setSp (ready 0x2300) 14)) =
    some (15, 0x0202#16, 0x0300#16) := by decide

/-- V19. -/
theorem test_se_imm : look (·.pc) (step (withV (ready 0x3307) [(3, 0x07#8)])) = some 0x204#16 ∧
    look (·.pc) (step (withV (ready 0x3307) [(3, 0x08#8)])) = some 0x202#16 := by decide

/-- V29: the skip wraps modulo 2^16. -/
theorem test_se_imm_wraps : look (·.pc) (step (readyAt 0xFFFE#16 0x3000)) = some 0x0002#16 := by decide

/-- V20. -/
theorem test_sne_imm : look (·.pc) (step (withV (readyAt 0x218#16 0x4105) [(1, 0x05#8)])) = some 0x21A#16 ∧
    look (·.pc) (step (withV (readyAt 0x218#16 0x4106) [(1, 0x05#8)])) = some 0x21C#16 := by decide

/-- V21. -/
theorem test_se_reg : look (·.pc) (step (withV (readyAt 0x300#16 0x5010) [(0, 0x2A#8), (1, 0x2A#8)])) =
    some 0x304#16 := by decide

/-- V24, V25. -/
theorem test_sne_reg : look (·.pc) (step (withV (readyAt 0x300#16 0x9010) [(0, 0x01#8), (1, 0x02#8)])) =
      some 0x304#16 ∧
    look (·.pc) (step (withV (readyAt 0x300#16 0x9550) [(5, 0x09#8)])) = some 0x302#16 := by decide

/-- V28: the sum is not masked. -/
theorem test_jp_v0 : look (·.pc) (step (withV (ready 0xBFFF) [(0, 0xFF#8)])) = some 0x10FE#16 := by decide

/-! ## One step: loads and ALU -/

/-- V40. -/
theorem test_ld_imm : look (fun t => (getV t 0xF#4, t.pc)) (step (withV (ready 0x6F00) [(15, 0x77#8)])) =
    some (0x00#8, 0x202#16) := by decide

/-- V41: no carry flag. -/
theorem test_add_imm : look (fun t => (getV t 0x0#4, getV t 0xF#4))
    (step (withV (ready 0x70FF) [(0, 0x04#8), (15, 0x55#8)])) = some (0x03#8, 0x55#8) := by decide

/-- V43. -/
theorem test_ld_reg : look (fun t => getV t 0x1#4) (step (withV (ready 0x8120) [(2, 0x55#8)])) =
    some 0x55#8 := by decide

/-- V44. -/
theorem test_or : look (fun t => (getV t 0x1#4, getV t 0xF#4))
    (step (withV (ready 0x8121) [(1, 0xF0#8), (2, 0x0F#8), (15, 0x55#8)])) = some (0xFF#8, 0x55#8) := by decide

/-- V45. -/
theorem test_and : look (fun t => getV t 0x1#4) (step (withV (ready 0x8122) [(1, 0xF0#8), (2, 0x3C#8)])) =
    some 0x30#8 := by decide

/-- V46. -/
theorem test_xor : look (fun t => getV t 0x1#4) (step (withV (ready 0x8123) [(1, 0xFF#8), (2, 0x0F#8)])) =
    some 0xF0#8 := by decide

/-- W2. -/
theorem test_add_reg : look (fun t => (getV t 0x1#4, getV t 0xF#4))
    (step (withV (ready 0x8124) [(1, 200#8), (2, 100#8)])) = some (44#8, 1#8) := by decide

/-- V50: the carry wins in VF. -/
theorem test_add_reg_into_vf : look (fun t => getV t 0xF#4)
    (step (withV (ready 0x8F14) [(15, 0xFF#8), (1, 0x01#8)])) = some 0x01#8 := by decide

/-- W3. -/
theorem test_sub : look (fun t => (getV t 0x1#4, getV t 0xF#4))
    (step (withV (ready 0x8125) [(1, 8#8), (2, 10#8)])) = some (254#8, 0#8) := by decide

/-- V53: equal operands do not borrow. -/
theorem test_sub_equal : look (fun t => (getV t 0x1#4, getV t 0xF#4))
    (step (withV (ready 0x8125) [(1, 5#8), (2, 5#8)])) = some (0#8, 1#8) := by decide

/-- V58: `V5` is ignored. -/
theorem test_shr : look (fun t => (getV t 0x4#4, getV t 0xF#4))
    (step (withV (ready 0x8456) [(4, 0x04#8), (5, 0xFF#8)])) = some (0x02#8, 0#8) := by decide

/-- V59. -/
theorem test_shr_vf : look (fun t => getV t 0xF#4) (step (withV (ready 0x8F06) [(15, 0x03#8)])) =
    some 0x01#8 := by decide

/-- V61. -/
theorem test_subn : look (fun t => (getV t 0x1#4, getV t 0xF#4))
    (step (withV (ready 0x8127) [(1, 0x0A#8), (2, 0x03#8)])) = some (0xF9#8, 0#8) := by decide

/-- V63. -/
theorem test_shl : look (fun t => (getV t 0x4#4, getV t 0xF#4)) (step (withV (ready 0x840E) [(4, 0x81#8)])) =
    some (0x02#8, 1#8) := by decide

/-- V65: the flag wins over the result. -/
theorem test_shl_vf : look (fun t => getV t 0xF#4) (step (withV (ready 0x8F0E) [(15, 0x81#8)])) =
    some 0x01#8 := by decide

/-- V68: a masked-out draw is 0, and the draw is used up. -/
theorem test_rnd_zero_mask : look (fun t => (getV t 0x3#4, t.rndDraws))
    (step (withV (ready 0xC300) [(3, 0x09#8)])) = some (0x00#8, 1) := by
  have h : ∀ s : State, look (fun t => (getV t 0x3#4, t.rndDraws)) (exec (.rnd 0x3#4 0x00#8) s) =
      some (0x00#8, s.rndDraws + 1) := by
    intro s
    simp [exec, execRnd, look]
  exact h (advancePc (withV (ready 0xC300) [(3, 0x09#8)]))

/-! ## One step: address register and memory -/

/-- V80. -/
theorem test_ld_i : look (·.i) (step (ready 0xAFFF)) = some 0x0FFF#16 := by decide

/-- V83: modulo 2^16, VF untouched. -/
theorem test_add_i : look (fun t => (t.i, getV t 0xF#4)) (step (withV (setI (ready 0xF11E) 0xFFFF#16) [(1, 0x02#8)])) =
    some (0x0001#16, 0x00#8) := by decide

/-- V88, for every `FONT_BASE`: the whole `V[x]` counts. -/
theorem test_ld_f : look (·.i) (step (withV (ready 0xF029) [(0, 0xFF#8)])) =
    some (BitVec.ofNat 16 (fontBase + 1275)) := by rfl

/-- V89. -/
theorem test_ld_b : look (fun t => (readByte t 0x300, readByte t 0x301, readByte t 0x302, t.i))
    (step (withV (setI (ready 0xF033) 0x300#16) [(0, 0xFE#8)])) = some (2#8, 5#8, 4#8, 0x300#16) := by decide

/-- V91, whatever lies at 0x000 before: the digits wrap from 0xFFF to 0x000. -/
theorem test_ld_b_top (s : State) (hi : s.i = 0x0FFE#16) (hv : getV s 0x0#4 = 0x7B#8) :
    look (fun t => (readByte t 0xFFE, readByte t 0xFFF, readByte t 0x000)) (exec (.ldB 0x0#4) s) =
      some (1#8, 2#8, 3#8) := by
  have h := fun k (hk : k < 3) => readByte_writeBytes s 0xFFE k (decimalDigits 0x7B#8) hk (by decide)
  have h2 : readByte (writeBytes s 0xFFE (decimalDigits 0x7B#8)) 0x000 = 3#8 := h 2 (by decide)
  have hd : indexed s 0 = 0xFFE := by simp [indexed, hi]
  simp only [exec, execLdB, look, hd, hv, h2]
  rw [show readByte _ 0xFFE = 1#8 from h 0 (by decide), show readByte _ 0xFFF = 2#8 from h 1 (by decide)]

/-- W8: `x` itself is included, the next byte is not written, `I` is kept. -/
theorem test_ld_mem : look (fun t => (readByte t 0x500, readByte t 0x503, readByte t 0x504, t.i))
    (step (withV (setI (ready 0xF355) 0x500#16) [(0, 1#8), (1, 2#8), (2, 3#8), (3, 4#8), (4, 5#8)])) =
      some (1#8, 4#8, 0#8, 0x500#16) := by decide

/-- V96. -/
theorem test_ld_vx_mem : look (fun t => (getV t 0x0#4, getV t 0x1#4, getV t 0x2#4, getV t 0x3#4))
    (step (withV (withI (ready 0xF265) 0x300#16 [2#8, 5#8, 4#8]) [(3, 0x77#8)])) =
      some (2#8, 5#8, 4#8, 0x77#8) := by decide

/-- V97: VF is loaded as data. -/
theorem test_ld_vx_mem_vf : look (fun t => (getV t 0xE#4, getV t 0xF#4))
    (step { setI (withV (ready 0xFF65) [(15, 1#8)]) 0x300#16 with
      mem := (ready 0xFF65).mem ++ [(0x30F, 0xAB#8)] }) = some (0x00#8, 0xAB#8) := by decide

/-! ## One step: display -/

/-- V100. -/
theorem test_cls : look (fun t => (pixel t.fb 0 0, pixel t.fb 63 31, getV t 0xF#4))
    (step (withV (withLit (ready 0x00E0) [(0, 0), (63, 31)]) [(15, 5#8)])) = some (false, false, 5#8) := by decide

/-- V105: a sprite across the right edge of the bottom row. -/
theorem test_drw_wraps : look (fun t => [61, 62, 63, 0, 5, 6].map (fun px => pixel t.fb px 31))
    (step (withV (withI (ready 0xD011) 0x300#16 [0xFF#8]) [(0, 0x3E#8), (1, 0x1F#8)])) =
      some [false, true, true, true, true, false] := by decide

/-- V103: row 0 collides, row 1 does not, and the flag stays set. -/
theorem test_drw_collision : look (fun t => (pixel t.fb 0 0, pixel t.fb 0 1, getV t 0xF#4))
    (step (withLit (withI (ready 0xD012) 0x300#16 [0x80#8, 0x80#8]) [(0, 0)])) = some (false, true, 1#8) := by decide

/-! ## One step: input latch and timers -/

/-- V120. -/
theorem test_skp : look (·.pc) (step (withKeys (withV (readyAt 0x206#16 0xE19E) [(1, 7#8)]) [7])) = some 0x20A#16 ∧
    look (·.pc) (step (withV (readyAt 0x206#16 0xE19E) [(1, 7#8)])) = some 0x208#16 := by decide

/-- V122: an index above 15 follows the draw, whichever it is. -/
theorem test_skp_out_of_range : look (·.pc) (step (withV (ready 0xE19E) [(1, 0x20#8)])) =
    some (if Config.keyOutOfRange 0 then 0x204#16 else 0x202#16) := by
  rcases h : Config.keyOutOfRange 0 with _ | _
  all_goals
    have hk : keyOutOfRange (advancePc (withV (ready 0xE19E) [(1, 0x20#8)])) = _ := h
    have hs : step (withV (ready 0xE19E) [(1, 0x20#8)]) =
      .next (skipIf (keyOutOfRange (advancePc (withV (ready 0xE19E) [(1, 0x20#8)])))
        (countKeyDraw (advancePc (withV (ready 0xE19E) [(1, 0x20#8)])))) := rfl
    rw [hs, hk]
    rfl

/-- V121. -/
theorem test_sknp : look (·.pc) (step (withV (readyAt 0x300#16 0xE2A1) [(2, 3#8)])) = some 0x304#16 ∧
    look (·.pc) (step (withKeys (withV (readyAt 0x300#16 0xE2A1) [(2, 3#8)]) [3])) = some 0x302#16 := by decide

/-- V123. -/
theorem test_ld_vx_dt : look (fun t => getV t 0x2#4) (step (setDT (ready 0xF207) 6#8)) = some 6#8 := by decide

/-- V125: the lowest pressed index wins. -/
theorem test_ld_vx_k : look (fun t => (getV t 0x1#4, t.pc)) (step (withKeys (ready 0xF10A) [9, 3])) =
    some (3#8, 0x202#16) := by decide

/-- V127: the roll-back wraps modulo 2^16. -/
theorem test_ld_vx_k_waits : look (·.pc) (step (readyAt 0xFFFE#16 0xF10A)) = some 0xFFFE#16 := by decide

/-- V128. -/
theorem test_ld_dt : look (·.dt) (step (withV (ready 0xF115) [(1, 7#8)])) = some 7#8 := by decide

/-- V129. -/
theorem test_ld_st : look (fun t => (t.st, t.dt)) (step (withV (ready 0xF318) [(3, 0x3C#8)])) =
    some (0x3C#8, 0#8) := by decide

/-! ## Host actions (V131-V134, V141) -/

theorem test_tick : (tickTimers (setDT State.reset 1#8)).dt = 0#8 ∧ (tickTimers (setDT State.reset 1#8)).st = 0#8 ∧
    (tickTimers (setST State.reset 2#8)).st = 1#8 := by decide

theorem test_set_key : look (fun t => getKey t 5) (setKey 5 true State.reset) = some true ∧
    look (fun t => getKey t 5) (setKey 16 true State.reset) = none := by decide

/-- V141, its load and first step. -/
theorem test_load_and_step : look (fun t => (readByte t 0x200, readByte t 0x203))
      (loadProgram [0x60#8, 0x05#8, 0x12#8, 0x02#8] State.reset) = some (0x60#8, 0x02#8) ∧
    look (fun t => (getV t 0x0#4, t.pc))
      (step { State.reset with mem := placeBytes [] 0x200 [0x60#8, 0x05#8, 0x12#8, 0x02#8] }) =
        some (0x05#8, 0x202#16) := by decide

/-! ## Witnesses: the hypotheses of each statement can be met -/

theorem witness_DecodedWordEncodesBack : decodeWord 0x8126#16 = some (.shr 0x1#4 0x2#4) := by decide

theorem witness_RecognisedWordsAreTheRowsOfTheMap : decodeWord 0xFF65#16 = some (.ldVxMem 0xF#4) := by decide

theorem witness_OpcodeRowsAreDisjoint : rowOf (.or 0 0) ∈ opcodeTable ∧ rowMatches 0x8121#16 (rowOf (.or 0 0)) = true := by
  decide

theorem witness_StepRunsTheDecodedInstruction : decodeWord (fetchWord (ready 0x6AC8)) = some (.ldImm 0xA#4 0xC8#8) := by
  decide

theorem witness_UnrecognisedWordIsAReportedNoOp : decodeWord (fetchWord (ready 0x0123)) = none := by decide

theorem witness_FlagIsWrittenLast : (0xE#4 : RegIx) ≠ 15#4 := by decide

theorem witness_SkipsOnTwoRegisters : (0x1#4 : Nibble) ≠ 0x0#4 ∧ (0xF#4 : Nibble) ≠ 0x0#4 := by decide

/-- Both clauses, at the boundary depths 0, 1 and 15. -/
theorem witness_ReturnPopsTheStack : State.reset.sp = 0 ∧ (setSp State.reset 1).sp ≠ 0 ∧
    (setSp State.reset 15).sp ≠ 0 := by decide

/-- Both clauses, at the boundary depths 14 and 15. -/
theorem witness_CallPushesTheAdvancedPc : (setSp State.reset 14).sp.val < 15 ∧ (setSp State.reset 15).sp.val = 15 := by
  decide

theorem witness_CallThenReturnComesBack : (setSp State.reset 14).sp.val < 15 ∧ State.reset.sp.val < 15 := by decide

theorem witness_AddSetsCarry : (0xE#4 : RegIx) ≠ 15#4 := by decide

theorem witness_SubtractionsSetNotBorrow : (0x0#4 : RegIx) ≠ 15#4 := by decide

theorem witness_ShiftsSetTheBitShiftedOut : (0xE#4 : RegIx) ≠ 15#4 := by decide

/-- Both clauses: a step that draws a byte, and one that draws a key state for index 16. -/
theorem witness_OnlyRandomAndKeySkipsDraw :
    look (fun t => decide (t.rndDraws ≠ (ready 0xC3FF).rndDraws)) (step (ready 0xC3FF)) = some true ∧
    look (fun t => decide (t.keyDraws ≠ 0)) (exec (.skp 0x1#4) (withV (ready 0xE19E) [(1, 16#8)])) = some true := by
  refine ⟨rfl, ?_⟩
  have h : ∀ s : State, s.keyDraws = 0 → 16 ≤ (getV s 0x1#4).toNat →
      look (fun t => decide (t.keyDraws ≠ 0)) (exec (.skp 0x1#4) s) = some true := by
    intro s h0 hk
    simp only [exec, execSkp, look, skipIf_eq, (keyOperand_outside s hk).2]
    simp
  exact h _ rfl (by decide)

/-- An address beside the three stored ones. -/
theorem witness_StoreDecimalDigits :
    ∀ k < 3, effective 0x303 ≠ effective (indexed (setI State.reset 0x300#16) k) := by decide

/-- The last register stored, and the address after its byte. -/
theorem witness_StoreRegisters : (0x3#4 : RegIx).toNat ≤ (0x3#4 : RegIx).toNat ∧
    ∀ k ≤ (0x3#4 : RegIx).toNat, effective 0x504 ≠ effective (indexed (setI State.reset 0x500#16) k) := by decide

/-- Both clauses, at the last register loaded and the one above it. -/
theorem witness_LoadRegisters : (0x3#4 : RegIx).toNat ≤ (0x3#4 : RegIx).toNat ∧
    (0x3#4 : RegIx).toNat < (0x4#4 : RegIx).toNat := by decide

/-- A later state: the state after the store, with registers overwritten. -/
theorem witness_StoreThenLoadRegistersRestores :
    ∃ t, exec (.ldMemVx 0xF#4) State.reset = .next t ∧ (setV t 0 9#8).mem = t.mem ∧
      (setV t 0 9#8).i = State.reset.i ∧ (0xF#4 : RegIx).toNat ≤ (0xF#4 : RegIx).toNat :=
  ⟨_, rfl, rfl, rfl, le_refl _⟩

/-- Both flag clauses: a lit pixel under a sprite bit, and a clear framebuffer. -/
theorem witness_DrawXorsTheSpriteMask :
    (∃ px py, pixel (withLit (withI State.reset 0x300#16 [0x80#8]) [(0, 0)]).fb px py = true ∧
      spriteCovers (withLit (withI State.reset 0x300#16 [0x80#8]) [(0, 0)]) 0#8 0#8 1#4 px py = true) ∧
    ∀ px py, pixel State.reset.fb px py = true → spriteCovers State.reset 0#8 0#8 1#4 px py = false :=
  ⟨⟨0, 0, by decide, by decide⟩, fun px py h => absurd h (by simp [pixel, State.reset])⟩

theorem witness_DrawTwiceErases : (∀ px py, pixel State.reset.fb px py = false) ∧ (0xE#4 : RegIx) ≠ 15#4 :=
  ⟨fun px py => by simp [pixel, State.reset], by decide⟩

/-- Both clauses, at the key indices 15 and 16. -/
theorem witness_KeySkips : (getV (setV State.reset 1 15#8) 1).toNat < 16 ∧ 15 < (getV (setV State.reset 1 16#8) 1).toNat := by
  decide

/-- Both clauses: no key pressed, and key 3 the least of two. -/
theorem witness_WaitForKey : (∀ k, getKey State.reset k = false) ∧ getKey (withKeys State.reset [9, 3]) 3 = true ∧
    ∀ k, k < 3 → getKey (withKeys State.reset [9, 3]) k = false := by decide

theorem witness_WaitAndSelfJumpLeaveTheStateAlone :
    (decodeWord (fetchWord (ready 0xF10A)) = some (.ldVxK 0x1#4) ∧ ∀ k, getKey (ready 0xF10A) k = false) ∧
    fetchWord (ready 0x1200) = formatA 0x1#4 0x200#12 ∧ (ready 0x1200).pc.toNat = (0x200#12).toNat := by decide

theorem witness_OnlyTheListedInstructionsWriteV :
    look (fun t => decide (getV t 0xA#4 ≠ getV (ready 0x6AC8) 0xA#4)) (step (ready 0x6AC8)) = some true := by decide

theorem witness_OnlyThreeInstructionsWriteI :
    look (fun t => decide (t.i ≠ (ready 0xA300).i)) (step (ready 0xA300)) = some true := by decide

theorem witness_PcMovesOnlyAsListed : decodeWord (fetchWord (ready 0x3000)) = some (.seImm 0x0#4 0x00#8) ∧
    look (·.pc) (step (ready 0x3000)) = some 0x204#16 := by decide

/-- Every clause: a CALL that writes a slot and raises `sp`, and a RET that lowers it. -/
theorem witness_OnlyCallAndReturnTouchTheStack :
    look (fun t => decide (getStack t 1 ≠ getStack (ready 0x2300) 1 ∧ (ready 0x2300).sp.val < t.sp.val))
      (step (ready 0x2300)) = some true ∧
    look (fun t => decide (t.sp.val < 1)) (step (withStack (ready 0x00EE) 1 0x206#16)) = some true := by decide

/-- Every clause: DT, ST and a pixel changed. -/
theorem witness_TimersDisplayAndLatchWriters :
    look (fun t => decide (t.dt ≠ 0#8)) (step (withV (ready 0xF115) [(1, 7#8)])) = some true ∧
    look (fun t => decide (t.st ≠ 0#8)) (step (withV (ready 0xF318) [(3, 7#8)])) = some true ∧
    look (fun t => decide (pixel t.fb 0 0 ≠ pixel (withLit (ready 0x00E0) [(0, 0)]).fb 0 0))
      (step (withLit (ready 0x00E0) [(0, 0)])) = some true := by decide

theorem witness_OnlyStoresChangeMemory :
    look (fun t => decide (readByte t 0x300 ≠ readByte (setI (ready 0xF033) 0x300#16) 0x300))
      (step (withV (setI (ready 0xF033) 0x300#16) [(0, 0xFE#8)])) = some true := by decide

/-- A step, a state that carries the mark, and the last glyph byte. -/
theorem witness_GlyphWritesLeaveAMark :
    look (·.faulted) (step ({ ready 0x1200 with faulted := true })) = some true ∧ 79 < 80 := by decide

theorem witness_OutputsFeedNothingBack :
    sameButOutputs (ready 0x1234) { ready 0x1234 with diag := [⟨0#16, 0#16⟩], faulted := true } ∧
    look (·.pc) (step (ready 0x1234)) = some 0x234#16 := ⟨rfl, by decide⟩

theorem witness_SoundTimerIsNeverRead : sameButSoundTimer (ready 0x1234) (setST (ready 0x1234) 9#8) ∧
    look (·.pc) (step (ready 0x1234)) = some 0x234#16 := ⟨rfl, by decide⟩

theorem witness_StepKeepsTheMemoryInvariant : MemoryInvariant State.reset ∧
    look (fun _ => true) (step State.reset) = some true := ⟨reset_mem_wf, by decide⟩

/-- Both clauses at boundary values: the last glyph byte, the first address past the glyph region's limit, the last byte. -/
theorem witness_ResetValues : 79 < 80 ∧ (fontBase + 80 ≤ 0x200) ∧ 0x200 < 4096 ∧ (fontBase + 80 ≤ 0xFFF) := by
  have h : fontBase < 433 := Config.fontBase.isLt
  omega

/-- Both clauses, at the indices 15 and 16. -/
theorem witness_KeySetThenQuery : 15 < 16 ∧ 16 ≤ 16 := by decide

/-- Every clause: images of 3584 and 3585 bytes, the bytes beside an image, a session past construction, and an action. -/
theorem witness_LoadWritesTheImageOnce : (List.replicate 3584 (0#8 : Byte)).length ≤ 3584 ∧
    3584 < (List.replicate 3585 (0#8 : Byte)).length ∧ (0x1FF < 0x200 ∧ 0x200 + [0x60#8, 0x05#8].length ≤ 0x202) ∧
    (Session.mk State.reset .loaded).phase ≠ .constructed ∧
    hostApply sessionStart .tick = .next ⟨tickTimers State.reset, .constructed⟩ :=
  ⟨le_of_eq List.length_replicate, lt_of_lt_of_eq (by decide : 3584 < 3585) List.length_replicate.symm, by decide,
    by decide, rfl⟩

theorem witness_HostRunsKeepTheInvariant : MemoryInvariant sessionStart.state ∧
    hostRun sessionStart [.tick, .readFramebuffer] = .next ⟨tickTimers State.reset, .constructed⟩ :=
  ⟨reset_mem_wf, rfl⟩

end Sys2Proof.Tests
end

section
/-! PROOFS. Rules about the shared operations that the laws above leave out: what each leaves of memory and of the
slots, and the two ways Fx0A can end. -/

namespace Sys2Proof.Machine

@[simp] theorem skipIf_mem (c : Bool) (s : State) : (skipIf c s).mem = s.mem := by
  rw [skipIf_eq, setPc_mem]

@[simp] theorem pushReturn_mem (s : State) (ret : Word) : (pushReturn s ret).mem = s.mem := by
  rw [pushReturn_frame]

@[simp] theorem popReturn_mem (s : State) : (popReturn s).mem = s.mem := by
  rw [popReturn_frame]

@[simp] theorem keyOperandState_mem (s : State) (k : Byte) : (keyOperandState s k).mem = s.mem := by
  rw [keyOperandState_frame]

@[simp] theorem loadRegs_mem (s : State) (x : RegIx) : (loadRegs s x).mem = s.mem := by
  rw [(loadRegs_spec s x).1]

/-- A pop writes no slot (R152). -/
theorem getStack_popReturn (s : State) (j : Fin 16) : getStack (popReturn s) j = getStack s j := by
  rw [popReturn_frame]
  rfl

/-- The two things Fx0A can do (R244): take the least pressed key, or roll `pc` back. -/
theorem execLdVxK_cases {x : RegIx} {s t : State} (h : execLdVxK x s = .next t) :
    (∃ k : Fin 16, firstKey s = some k ∧ t = setV s x (BitVec.ofNat 8 k.val)) ∨
      (firstKey s = none ∧ t = setPc s (s.pc - 2#16)) := by
  unfold execLdVxK at h
  split at h
  · next k hk => exact .inl ⟨k, hk, (Host.Outcome.next.inj h).symm⟩
  · next hk => exact .inr ⟨hk, (Host.Outcome.next.inj h).symm⟩

end Sys2Proof.Machine
end

section
/-! PROOFS. What one instruction writes, as a list of parts of the state, and what follows for one step. -/

namespace Sys2Proof.Safety

open Sys2Proof.Machine

/-! ## Frames of the shared operations that Laws/Frame.lean leaves out -/

/-- A frame may be widened. -/
theorem onlyChanges_mono {ps qs : List Part} {s t : State} (hsub : ps ⊆ qs) (h : onlyChanges ps s t) :
    onlyChanges qs s t :=
  fun p hp => h p (fun hmem => hp (hsub hmem))

/-- A delay timer write changes DT alone. -/
theorem onlyChanges_setDT (s : State) (b : Byte) : onlyChanges [.dt] s (setDT s b) := by
  intro p hp
  cases p <;> simp_all [unchanged]

/-- A sound timer write changes ST alone. -/
theorem onlyChanges_setST (s : State) (b : Byte) : onlyChanges [.st] s (setST s b) := by
  intro p hp
  cases p <;> simp_all [unchanged]

/-- A random draw changes its counter alone. -/
theorem onlyChanges_countRandom (s : State) : onlyChanges [.rndDraws] s (countRandom s) := by
  intro p hp
  cases p <;> simp_all [unchanged]

/-- Reading a key operand changes at most the key draw counter (R240). -/
theorem onlyChanges_keyOperandState (s : State) (k : Byte) :
    onlyChanges [.keyDraws] s (keyOperandState s k) := by
  rw [keyOperandState_frame]
  intro p hp
  cases p <;> simp_all [unchanged, getV, getStack, getKey, readByte]

/-- New values of `pc`, `sp` and the slots change those two parts alone. -/
theorem onlyChanges_pc_stack (s : State) (pc : Word) (sp : Fin 16) (stack : Vector Word 16) :
    onlyChanges [.pc, .stack] s { s with pc := pc, sp := sp, stack := stack } := by
  intro p hp
  cases p <;> simp_all [unchanged, getV, getKey, readByte]

/-- CALL's push and jump change `pc` and the stack alone (R154). -/
theorem onlyChanges_setPc_pushReturn (s : State) (ret target : Word) :
    onlyChanges [.pc, .stack] s (setPc (pushReturn s ret) target) := by
  rw [pushReturn_frame]
  exact onlyChanges_pc_stack s _ _ _

/-- A pop changes `pc` and the stack alone (R152). -/
theorem onlyChanges_popReturn (s : State) : onlyChanges [.pc, .stack] s (popReturn s) := by
  rw [popReturn_frame]
  exact onlyChanges_pc_stack s _ _ _

/-- A key skip changes `pc` and the key draw counter alone (R241, R242). -/
theorem onlyChanges_skipIf_keyOperandState (c : Bool) (k : Byte) (s : State) :
    onlyChanges [.pc, .keyDraws] s (skipIf c (keyOperandState s k)) :=
  onlyChanges_trans (onlyChanges_mono (by simp) (onlyChanges_keyOperandState s k))
    (onlyChanges_mono (by simp) (onlyChanges_skipIf c _))

/-- Fx65 changes V alone (R206). -/
theorem onlyChanges_loadRegs (s : State) (x : RegIx) : onlyChanges [.v] s (loadRegs s x) := by
  rw [(loadRegs_spec s x).1]
  exact onlyChanges_v s _

/-! ## The frame of every instruction -/

/-- The parts of the state an instruction may write. -/
def writtenParts : Instr → List Part
  | .cls => [.display]
  | .ret | .call _ => [.pc, .stack]
  | .jp _ | .jpV0 _ => [.pc]
  | .seImm _ _ | .sneImm _ _ | .seReg _ _ | .sneReg _ _ => [.pc]
  | .ldImm _ _ | .addImm _ _ | .ldReg _ _ | .or _ _ | .and _ _ | .xor _ _ => [.v]
  | .addReg _ _ | .sub _ _ | .shr _ _ | .subn _ _ | .shl _ _ => [.v]
  | .rnd _ _ => [.v, .rndDraws]
  | .drw _ _ _ => [.v, .display]
  | .skp _ | .sknp _ => [.pc, .keyDraws]
  | .ldVxDT _ | .ldVxMem _ => [.v]
  | .ldVxK _ => [.v, .pc]
  | .ldDTVx _ => [.dt]
  | .ldSTVx _ => [.st]
  | .ldI _ | .addI _ | .ldF _ => [.i]
  | .ldB _ | .ldMemVx _ => [.memory, .faulted]

/-- An instruction changes at most the parts it is listed with. -/
theorem exec_onlyChanges {i : Instr} {s t : State} (h : exec i s = .next t) :
    onlyChanges (writtenParts i) s t := by
  cases i with
  | cls => cases h; exact onlyChanges_setFb s _
  | ret => cases h; exact onlyChanges_popReturn s
  | call _ => cases h; exact onlyChanges_setPc_pushReturn s _ _
  | jp _ | jpV0 _ => cases h; exact onlyChanges_setPc s _
  | seImm _ _ | sneImm _ _ | seReg _ _ | sneReg _ _ => cases h; exact onlyChanges_skipIf _ s
  | ldImm _ _ | addImm _ _ | ldReg _ _ | or _ _ | and _ _ | xor _ _ | ldVxDT _ =>
    cases h; exact onlyChanges_setV s _ _
  | addReg _ _ | sub _ _ | shr _ _ | subn _ _ | shl _ _ =>
    cases h; exact onlyChanges_writeResultThenFlag s _ _ _
  | rnd _ _ =>
    cases h
    exact onlyChanges_trans (onlyChanges_mono (by simp [writtenParts]) (onlyChanges_countRandom s))
      (onlyChanges_mono (by simp [writtenParts]) (onlyChanges_setV _ _ _))
  | drw _ _ _ =>
    cases h
    exact onlyChanges_trans (onlyChanges_mono (by simp [writtenParts]) (onlyChanges_setFb s _))
      (onlyChanges_mono (by simp [writtenParts]) (onlyChanges_setV _ _ _))
  | skp _ | sknp _ => cases h; exact onlyChanges_skipIf_keyOperandState _ _ s
  | ldVxK x =>
    obtain ⟨k, -, rfl⟩ | ⟨-, rfl⟩ := execLdVxK_cases h
    · exact onlyChanges_mono (by simp [writtenParts]) (onlyChanges_setV s _ _)
    · exact onlyChanges_mono (by simp [writtenParts]) (onlyChanges_setPc s _)
  | ldDTVx _ => cases h; exact onlyChanges_setDT s _
  | ldSTVx _ => cases h; exact onlyChanges_setST s _
  | ldI _ | addI _ | ldF _ => cases h; exact onlyChanges_setI s _
  | ldB _ | ldMemVx _ => cases h; exact onlyChanges_writeBytes s _ _
  | ldVxMem x => cases h; exact onlyChanges_loadRegs s x

/-- The advance of `pc` changes `pc` alone (R132). -/
theorem onlyChanges_advancePc (s : State) : onlyChanges [.pc] s (advancePc s) :=
  onlyChanges_setPc s _

/-- A part other than `pc` and the reports is as before a step, or the step's instruction is listed with it. -/
theorem step_unchanged_or_written {s t : State} (h : step s = .next t) (p : Part) (hpc : p ≠ .pc)
    (hdiag : p ≠ .diag) :
    unchanged s t p ∨ ∃ i, decodeWord (fetchWord s) = some i ∧ p ∈ writtenParts i := by
  obtain ⟨i, hi, hx⟩ | ⟨-, rfl⟩ := step_cases h
  · by_cases hw : p ∈ writtenParts i
    · exact .inr ⟨i, hi, hw⟩
    · have hframe : onlyChanges (.pc :: writtenParts i) s t :=
        onlyChanges_trans (onlyChanges_mono (by simp) (onlyChanges_advancePc s))
          (onlyChanges_mono (by simp) (exec_onlyChanges hx))
      exact .inl (hframe p (by simp [hpc, hw]))
  · left
    cases p <;> simp_all [unchanged]

/-! ## The instructions listed with a part -/

theorem i_mem_writtenParts {i : Instr} (h : Part.i ∈ writtenParts i) :
    (∃ nnn, i = .ldI nnn) ∨ (∃ x, i = .addI x) ∨ ∃ x, i = .ldF x := by
  cases i <;> simp_all [writtenParts]

theorem dt_mem_writtenParts {i : Instr} (h : Part.dt ∈ writtenParts i) : ∃ x, i = .ldDTVx x := by
  cases i <;> simp_all [writtenParts]

theorem st_mem_writtenParts {i : Instr} (h : Part.st ∈ writtenParts i) : ∃ x, i = .ldSTVx x := by
  cases i <;> simp_all [writtenParts]

theorem display_mem_writtenParts {i : Instr} (h : Part.display ∈ writtenParts i) :
    i = .cls ∨ ∃ x y n, i = .drw x y n := by
  cases i <;> simp_all [writtenParts]

theorem key_not_mem_writtenParts (i : Instr) : Part.key ∉ writtenParts i := by
  cases i <;> simp [writtenParts]

theorem stack_mem_writtenParts {i : Instr} (h : Part.stack ∈ writtenParts i) :
    i = .ret ∨ ∃ nnn, i = .call nnn := by
  cases i <;> simp_all [writtenParts]

/-- An instruction leaves every register it may not write as it was (R34). -/
theorem exec_getV_of_not_mayWriteV {i : Instr} {s t : State} {r : RegIx} (h : exec i s = .next t)
    (hr : mayWriteV i r = false) : getV t r = getV s r := by
  cases i with
  | ldImm x _ | addImm x _ | ldReg x _ | or x _ | and x _ | xor x _ | ldVxDT x =>
    cases h; exact getV_setV_other s _ (by simpa [mayWriteV] using hr)
  | rnd x _ => cases h; exact getV_setV_other (countRandom s) _ (by simpa [mayWriteV] using hr)
  | drw _ _ _ => cases h; exact getV_setV_other (setFb s _) _ (by simpa [mayWriteV] using hr)
  | addReg x _ | sub x _ | shr x _ | subn x _ | shl x _ =>
    cases h
    obtain ⟨hx, hf⟩ : r ≠ x ∧ r ≠ flagReg := by simpa [mayWriteV] using hr
    exact getV_writeResultThenFlag_other s _ _ hx hf
  | ldVxK x =>
    obtain ⟨k, -, rfl⟩ | ⟨-, rfl⟩ := execLdVxK_cases h
    · exact getV_setV_other s _ (by simpa [mayWriteV] using hr)
    · exact getV_setPc s _ r
  | ldVxMem x =>
    cases h
    have hx : ¬ r.toNat ≤ x.toNat := by simpa [mayWriteV] using hr
    rw [(loadRegs_spec s x).2 r, if_neg hx]
  | _ => exact exec_onlyChanges h .v (by simp [writtenParts]) r

/-! ## The obligations about who writes what -/

/-- Settles O40: an unrecognised word writes no register, and the execution of a decoded one only those R34 lists. -/
theorem onlyTheListedInstructionsWriteV : Obligations.OnlyTheListedInstructionsWriteV := by
  intro s t r h hne
  obtain ⟨i, hi, hx⟩ | ⟨-, rfl⟩ := step_cases h
  · refine ⟨i, hi, ?_⟩
    by_contra hr
    exact hne ((exec_getV_of_not_mayWriteV hx (Bool.eq_false_iff.mpr hr)).trans (getV_advancePc s r))
  · exact absurd rfl hne

/-- Settles O41, by the frame of the step's instruction. -/
theorem onlyThreeInstructionsWriteI : Obligations.OnlyThreeInstructionsWriteI := by
  intro s t h hne
  obtain hkept | ⟨i, hi, hw⟩ := step_unchanged_or_written h .i (by decide) (by decide)
  · exact absurd hkept hne
  · rw [hi]
    simpa only [Option.some.injEq] using i_mem_writtenParts hw

/-- Settles O44, one part of the state at a time, by the frame of the step's instruction. -/
theorem timersDisplayAndLatchWriters : Obligations.TimersDisplayAndLatchWriters := by
  intro s t h
  refine ⟨fun hne => ?_, fun hne => ?_, fun px py hne => ?_, fun k => ?_⟩
  · obtain hkept | ⟨i, hi, hw⟩ := step_unchanged_or_written h .dt (by decide) (by decide)
    · exact absurd hkept hne
    · obtain ⟨x, rfl⟩ := dt_mem_writtenParts hw
      exact ⟨x, hi⟩
  · obtain hkept | ⟨i, hi, hw⟩ := step_unchanged_or_written h .st (by decide) (by decide)
    · exact absurd hkept hne
    · obtain ⟨x, rfl⟩ := st_mem_writtenParts hw
      exact ⟨x, hi⟩
  · obtain hkept | ⟨i, hi, hw⟩ := step_unchanged_or_written h .display (by decide) (by decide)
    · exact absurd (hkept px py) hne
    · obtain rfl | ⟨x, y, n, rfl⟩ := display_mem_writtenParts hw
      · exact .inl hi
      · exact .inr ⟨x, y, n, hi⟩
  · obtain hkept | ⟨i, -, hw⟩ := step_unchanged_or_written h .key (by decide) (by decide)
    · exact hkept k
    · exact absurd hw (key_not_mem_writtenParts i)

/-! ## The call stack -/

/-- Everything a step can do to the call stack (R38-R40): nothing, CALL's push or RET's pop. -/
theorem step_stack_cases {s t : State} (h : step s = .next t) :
    (t.sp = s.sp ∧ ∀ j, getStack t j = getStack s j) ∨
    (∃ nnn, decodeWord (fetchWord s) = some (.call nnn) ∧ t.sp.val = min (s.sp.val + 1) 15 ∧
      getStack t 0 = getStack s 0) ∨
    (decodeWord (fetchWord s) = some .ret ∧ t.sp.val = s.sp.val - 1 ∧
      ∀ j, getStack t j = getStack s j) := by
  obtain hkept | ⟨i, hi, hw⟩ := step_unchanged_or_written h .stack (by decide) (by decide)
  · exact .inl hkept
  · have hx : exec i (advancePc s) = .next t := by simpa [step, hi] using h
    obtain rfl | ⟨nnn, rfl⟩ := stack_mem_writtenParts hw
    · cases hx
      exact .inr (.inr ⟨hi, popReturn_sp _, getStack_popReturn _⟩)
    · cases hx
      exact .inr (.inl ⟨nnn, hi, pushReturn_sp _ _, getStack_pushReturn_zero _ _⟩)

/-- No step writes `stack[0]` (R40). -/
theorem step_getStack_zero {s t : State} (h : step s = .next t) : getStack t 0 = getStack s 0 := by
  obtain ⟨-, hslots⟩ | ⟨nnn, -, -, hzero⟩ | ⟨-, -, hslots⟩ := step_stack_cases h
  · exact hslots 0
  · exact hzero
  · exact hslots 0

/-- Settles O43, by the three things a step can do to the stack. -/
theorem onlyCallAndReturnTouchTheStack : Obligations.OnlyCallAndReturnTouchTheStack := by
  intro s t h
  refine ⟨step_getStack_zero h, ?_⟩
  have hlt := s.sp.isLt
  obtain ⟨hsp, hslots⟩ | ⟨nnn, hi, hsp, -⟩ | ⟨hi, hsp, hslots⟩ := step_stack_cases h
  · rw [hsp]
    exact ⟨fun j hj => absurd (hslots j) hj, fun hup => by omega, fun hdown => by omega⟩
  · exact ⟨fun _ _ => ⟨nnn, hi⟩, fun _ => ⟨by omega, nnn, hi⟩, fun _ => by omega⟩
  · exact ⟨fun j hj => absurd (hslots j) hj, fun _ => by omega, fun _ => ⟨by omega, hi⟩⟩

end Sys2Proof.Safety
end

section
/-! PROOFS. Every step and every host action keeps the canonical form of memory and `stack[0]`. -/

namespace Sys2Proof.Safety

open Sys2Proof.Machine

/-! ## Memory after an instruction -/

/-- The bytes an instruction stores from `I` on, in the state it executes in: three digits for Fx33, `x + 1`
registers for Fx55, none for any other (R76). -/
def storedBytes (s : State) : Instr → List Byte
  | .ldB x => decimalDigits (getV s x)
  | .ldMemVx x => regsUpTo s x
  | _ => []

/-- Memory after an instruction is the memory before with the instruction's bytes placed from `I` on. -/
theorem exec_mem {i : Instr} {s t : State} (h : exec i s = .next t) :
    t.mem = placeBytes s.mem (indexed s 0) (storedBytes s i) := by
  cases i with
  | ldB _ | ldMemVx _ => cases h; exact writeBytes_mem _ s _
  | ret => cases h; exact popReturn_mem s
  | call _ => cases h; exact pushReturn_mem s _
  | seImm _ _ | sneImm _ _ | seReg _ _ | sneReg _ _ => cases h; exact skipIf_mem _ s
  | skp _ | sknp _ => cases h; exact (skipIf_mem _ _).trans (keyOperandState_mem s _)
  | ldVxK _ => obtain ⟨k, -, rfl⟩ | ⟨-, rfl⟩ := execLdVxK_cases h <;> rfl
  | ldVxMem x => cases h; exact loadRegs_mem s x
  | _ => cases h; rfl

/-- A step keeps the canonical form of memory (R70, R72). -/
theorem step_keeps_memoryInvariant {s t : State} (hs : MemoryInvariant s) (h : step s = .next t) :
    MemoryInvariant t := by
  obtain ⟨i, -, hx⟩ | ⟨-, rfl⟩ := step_cases h
  · rw [MemoryInvariant, exec_mem hx]
    exact placeBytes_wf _ _ hs
  · exact hs

/-! ## Host actions and runs of them -/

/-- What every run of host actions keeps, from one state to a later one: canonical memory and `stack[0]`. -/
def KeepsInvariant (s t : State) : Prop :=
  MemoryInvariant s → MemoryInvariant t ∧ getStack t 0 = getStack s 0

theorem KeepsInvariant.refl (s : State) : KeepsInvariant s s := fun hs => ⟨hs, rfl⟩

theorem KeepsInvariant.trans {s t u : State} (h : KeepsInvariant s t) (h' : KeepsInvariant t u) :
    KeepsInvariant s u := by
  intro hs
  obtain ⟨ht, hzero⟩ := h hs
  obtain ⟨hu, hzero'⟩ := h' ht
  exact ⟨hu, hzero'.trans hzero⟩

/-- One accepted host action keeps the invariant, in every phase (R275). -/
theorem hostApply_keepsInvariant {ss ss' : Session} {e : HostEvent} (h : hostApply ss e = .next ss') :
    KeepsInvariant ss.state ss'.state := by
  intro hs
  cases e with
  | load image =>
    rcases hphase : ss.phase with _ | _ | _ <;> simp only [hostApply, hphase] at h
    case constructed =>
      obtain ⟨-, ht⟩ := loadProgram_next (inPhase_next h).1
      rw [ht]
      exact ⟨placeBytes_wf _ _ hs, rfl⟩
    all_goals cases h
  | step =>
    have hstep : step ss.state = .next ss'.state := (inPhase_next h).1
    exact ⟨step_keeps_memoryInvariant hs hstep, step_getStack_zero hstep⟩
  | tick => cases h; exact ⟨hs, rfl⟩
  | setKey k pressed =>
    obtain ⟨_, ht⟩ := setKey_next (inPhase_next h).1
    rw [ht]
    exact ⟨hs, rfl⟩
  | queryKey k => rw [afterQuery_next h]; exact ⟨hs, rfl⟩
  | readFramebuffer => cases h; exact ⟨hs, rfl⟩

/-- A run that answers applies its first action and runs on from there. -/
theorem hostRun_cons_next {ss ss' : Session} {e : HostEvent} {es : List HostEvent}
    (h : hostRun ss (e :: es) = .next ss') :
    ∃ mid, hostApply ss e = .next mid ∧ hostRun mid es = .next ss' := by
  rw [hostRun] at h
  split at h
  · next mid hmid => exact ⟨mid, hmid, h⟩
  · cases h
  · cases h

/-- A run of host actions keeps the invariant, by induction on the actions. -/
theorem hostRun_keepsInvariant {es : List HostEvent} {ss ss' : Session} (h : hostRun ss es = .next ss') :
    KeepsInvariant ss.state ss'.state := by
  induction es generalizing ss with
  | nil => cases h; exact .refl _
  | cons e es ih =>
    obtain ⟨mid, happly, hrun⟩ := hostRun_cons_next h
    exact (hostApply_keepsInvariant happly).trans (ih hrun)

/-- Settles O56. -/
theorem hostRunsKeepTheInvariant : Obligations.HostRunsKeepTheInvariant :=
  fun _ _ _ hs h => hostRun_keepsInvariant h hs

end Sys2Proof.Safety
end

section
/-! PROOFS. No instruction reads `diag`, `faulted` or ST (R30, R42, R46): a step commutes with replacing them. -/

namespace Sys2Proof.Safety

open Sys2Proof.Machine

/-- A state with other values in the three fields no instruction reads. -/
def withUnread (s : State) (d : List DiagRecord) (f : Bool) (b : Byte) : State :=
  { s with diag := d, faulted := f, st := b }

section Operations

variable (s : State) (d : List DiagRecord) (f : Bool) (b : Byte)

@[simp] theorem withUnread_pc : (withUnread s d f b).pc = s.pc := rfl

@[simp] theorem fetchWord_withUnread : fetchWord (withUnread s d f b) = fetchWord s := rfl

@[simp] theorem getV_withUnread (x : RegIx) : getV (withUnread s d f b) x = getV s x := rfl

@[simp] theorem firstKey_withUnread : firstKey (withUnread s d f b) = firstKey s := rfl

@[simp] theorem keyOperand_withUnread (k : Byte) : keyOperand (withUnread s d f b) k = keyOperand s k := rfl

@[simp] theorem setPc_withUnread (w : Word) : setPc (withUnread s d f b) w = withUnread (setPc s w) d f b := rfl

@[simp] theorem setV_withUnread (x : RegIx) (r : Byte) :
    setV (withUnread s d f b) x r = withUnread (setV s x r) d f b := rfl

@[simp] theorem skipIf_withUnread (c : Bool) : skipIf c (withUnread s d f b) = withUnread (skipIf c s) d f b := by
  cases c <;> rfl

@[simp] theorem pushReturn_withUnread (ret : Word) :
    pushReturn (withUnread s d f b) ret = withUnread (pushReturn s ret) d f b := by
  by_cases h : s.sp.val < 15
  · rw [pushReturn_below ret h, pushReturn_below ret (s := withUnread s d f b) h]; rfl
  · rw [pushReturn_full ret h, pushReturn_full ret (s := withUnread s d f b) h]
    cases overflowMode <;> rfl

@[simp] theorem popReturn_withUnread : popReturn (withUnread s d f b) = withUnread (popReturn s) d f b := by
  by_cases h : s.sp = 0
  · rw [popReturn_empty h, popReturn_empty (s := withUnread s d f b) h]
    cases underflowMode <;> rfl
  · have h' : s.sp.val ≠ 0 := fun e => h (Fin.ext e)
    rw [popReturn_nonempty h', popReturn_nonempty (s := withUnread s d f b) h']; rfl

@[simp] theorem keyOperandState_withUnread (k : Byte) :
    keyOperandState (withUnread s d f b) k = withUnread (keyOperandState s k) d f b := by
  unfold keyOperandState
  split <;> rfl

@[simp] theorem loadRegs_withUnread (x : RegIx) :
    loadRegs (withUnread s d f b) x = withUnread (loadRegs s x) d f b :=
  List.foldl_hom (fun u => withUnread u d f b) (fun _ _ => rfl)

/-- A run of writes adds its mark to whatever `faulted` was (R78). -/
@[simp] theorem writeBytes_withUnread (a : Nat) (bs : List Byte) :
    writeBytes (withUnread s d f b) a bs =
      withUnread (writeBytes s a bs) d (f || (List.range bs.length).any (fun k => marksGlyphWrite (a + k))) b := by
  simp only [writeBytes_eq]
  rfl

end Operations

/-- A transition from `s` to `t` goes the same way with any other values in the unread fields, and what it leaves
in each of them depends on that field alone. -/
def TransparentToUnread (m : State → Result) (s t : State) : Prop :=
  ∃ (D : List DiagRecord → List DiagRecord) (F : Bool → Bool) (B : Byte → Byte),
    ∀ d f b, m (withUnread s d f b) = .next (withUnread t (D d) (F f) (B b))

/-- A transition that carries the unread fields along. -/
theorem TransparentToUnread.of_carried {m : State → Result} {s t : State}
    (h : ∀ d f b, m (withUnread s d f b) = .next (withUnread t d f b)) : TransparentToUnread m s t :=
  ⟨id, id, id, h⟩

/-- No instruction reads `diag`, `faulted` or ST: all carry them along but Fx18, which sets ST from a register, and
the two stores, which may mark `faulted`. -/
theorem exec_transparentToUnread {i : Instr} {s t : State} (h : exec i s = .next t) :
    TransparentToUnread (exec i) s t := by
  cases i with
  | ldSTVx x => cases h; exact ⟨id, id, fun _ => getV s x, fun _ _ _ => rfl⟩
  | ldB x =>
    cases h
    exact ⟨id, _, id, fun d f b =>
      congrArg Host.Outcome.next (writeBytes_withUnread s d f b (indexed s 0) (decimalDigits (getV s x)))⟩
  | ldMemVx x =>
    cases h
    exact ⟨id, _, id, fun d f b =>
      congrArg Host.Outcome.next (writeBytes_withUnread s d f b (indexed s 0) (regsUpTo s x))⟩
  | ret => cases h; exact .of_carried fun d f b => by simp [exec, execRet]
  | call _ => cases h; exact .of_carried fun d f b => by simp [exec, execCall]
  | seImm _ _ | sneImm _ _ | seReg _ _ | sneReg _ _ =>
    cases h
    exact .of_carried fun d f b => congrArg Host.Outcome.next (skipIf_withUnread s d f b _)
  | skp _ => cases h; exact .of_carried fun d f b => by simp [exec, execSkp]
  | sknp _ => cases h; exact .of_carried fun d f b => by simp [exec, execSknp]
  | ldVxK _ =>
    obtain ⟨k, hk, rfl⟩ | ⟨hk, rfl⟩ := execLdVxK_cases h
    · exact .of_carried fun d f b => by simp [exec, execLdVxK, hk]
    · exact .of_carried fun d f b => by simp [exec, execLdVxK, hk]
  | ldVxMem _ => cases h; exact .of_carried fun d f b => by simp [exec, execLdVxMem]
  | _ => cases h; exact .of_carried fun _ _ _ => rfl

/-- No step reads `diag`, `faulted` or ST. -/
theorem step_transparentToUnread {s t : State} (h : step s = .next t) : TransparentToUnread step s t := by
  obtain ⟨i, hi, hx⟩ | ⟨hn, rfl⟩ := step_cases h
  · obtain ⟨D, F, B, hstep⟩ := exec_transparentToUnread hx
    refine ⟨D, F, B, fun d f b => ?_⟩
    rw [step, fetchWord_withUnread, hi]
    exact hstep d f b
  · refine ⟨(· ++ [⟨fetchWord s, s.pc⟩]), id, id, fun d f b => ?_⟩
    rw [step, fetchWord_withUnread, hn]
    rfl

/-- States that differ at most in `diag` and `faulted` are one state with two fillings of them. -/
theorem eq_withUnread_of_sameButOutputs {s s' : State} (h : sameButOutputs s s') :
    s' = withUnread s s'.diag s'.faulted s.st := by
  have hs : { s' with diag := s.diag, faulted := s.faulted } = s := h
  have hfill := congrArg (fun u => withUnread u s'.diag s'.faulted u.st) hs
  exact hfill

/-- States that differ at most in ST are one state with two fillings of it. -/
theorem eq_withUnread_of_sameButSoundTimer {s s' : State} (h : sameButSoundTimer s s') :
    s' = withUnread s s.diag s.faulted s'.st := by
  have hs : { s' with st := s.st } = s := h
  have hfill := congrArg (fun u => withUnread u u.diag u.faulted s'.st) hs
  exact hfill

/-- Settles O47: the second state is the first with other outputs, and the step carries them past the rest. -/
theorem outputsFeedNothingBack : Obligations.OutputsFeedNothingBack := by
  intro s s' t hsame h
  obtain ⟨D, F, B, hstep⟩ := step_transparentToUnread h
  have ht : t = withUnread t (D s.diag) (F s.faulted) (B s.st) :=
    Host.Outcome.next.inj (h.symm.trans (hstep s.diag s.faulted s.st))
  have hst : t.st = B s.st := congrArg State.st ht
  refine ⟨withUnread t (D s'.diag) (F s'.faulted) (B s.st), ?_, ?_⟩
  · rw [eq_withUnread_of_sameButOutputs hsame]
    exact hstep s'.diag s'.faulted s.st
  · rw [← hst]
    rfl

/-- Settles O48: the second state is the first with another ST, and the step carries it past the rest. -/
theorem soundTimerIsNeverRead : Obligations.SoundTimerIsNeverRead := by
  intro s s' t hsame h
  obtain ⟨D, F, B, hstep⟩ := step_transparentToUnread h
  have ht : t = withUnread t (D s.diag) (F s.faulted) (B s.st) :=
    Host.Outcome.next.inj (h.symm.trans (hstep s.diag s.faulted s.st))
  have hdiag : t.diag = D s.diag := congrArg State.diag ht
  have hfaulted : t.faulted = F s.faulted := congrArg State.faulted ht
  refine ⟨withUnread t (D s.diag) (F s.faulted) (B s'.st), ?_, ?_⟩
  · rw [eq_withUnread_of_sameButSoundTimer hsame]
    exact hstep s.diag s.faulted s'.st
  · rw [← hdiag, ← hfaulted]
    rfl

end Sys2Proof.Safety
end

section
/-! PROOFS. The encoder, the decoder and the 34 mask/match rows of the opcode map agree (30_encoding.md R104, R105). -/

namespace Sys2Proof

/-! ## Decoding an encoded instruction -/

/-- The decoder reads every instruction back from its word: the fields of its format select its group and sub-op. -/
theorem decodeWord_encode (i : Instr) : decodeWord (encode i) = some i := by
  cases i with
  | cls | ret => rfl
  | jp _ | call _ | ldI _ | jpV0 _ | seImm _ _ | sneImm _ _ | ldImm _ _ | addImm _ _ | rnd _ _ | drw _ _ _ =>
    simp [encode, decodeWord]
  | seReg _ _ | sneReg _ _ => simp [encode, decodeWord, decodeZeroNibble]
  | ldReg _ _ | or _ _ | and _ _ | xor _ _ | addReg _ _ | sub _ _ | shr _ _ | subn _ _ | shl _ _ =>
    simp [encode, decodeWord, decodeGroup8]
  | skp _ | sknp _ => simp [encode, decodeWord, decodeGroupE]
  | ldVxDT _ | ldVxK _ | ldDTVx _ | ldSTVx _ | addI _ | ldF _ | ldB _ | ldMemVx _ | ldVxMem _ =>
    simp [encode, decodeWord, decodeGroupF]

/-- The decoder reads every instruction back from its two bytes and leaves the bytes that follow. -/
theorem decode_encodeBytes_append (i : Instr) (rest : List Byte) :
    decode (encodeBytes i ++ rest) = .instr i rest := by
  have hpair : encodeBytes i ++ rest = highByte (encode i) :: lowByte (encode i) :: rest := rfl
  rw [hpair, decode_two, Machine.wordOfBytes_high_low, decodeWord_encode]

/-- Settles O1, by the round trip of the word and the two bytes that make it up. -/
theorem encodedInstructionDecodesBack : Obligations.EncodedInstructionDecodesBack :=
  fun i rest => ⟨decodeWord_encode i, decode_encodeBytes_append i rest⟩

/-! ## Encoding a decoded word

Each format puts a word together again from the group and sub-op the lookup compared and the operands it read. -/

section Fields

variable {w : Word} {g : Nibble}

theorem formatA_of_fieldGroup (hg : (fieldGroup w).toNat = g.toNat) : formatA g (fieldNNN w) = w := by
  rw [← BitVec.eq_of_toNat_eq hg, formatA_fields]

theorem formatXK_of_fieldGroup (hg : (fieldGroup w).toNat = g.toNat) :
    formatXK g (fieldX w) (fieldKK w) = w := by
  rw [← BitVec.eq_of_toNat_eq hg, formatXK_fields]

theorem formatXY_of_fieldGroup (hg : (fieldGroup w).toNat = g.toNat) :
    formatXY g (fieldX w) (fieldY w) (fieldN w) = w := by
  rw [← BitVec.eq_of_toNat_eq hg, formatXY_fields]

theorem formatXY_of_fieldN {n : Nibble} (hg : (fieldGroup w).toNat = g.toNat)
    (hn : (fieldN w).toNat = n.toNat) : formatXY g (fieldX w) (fieldY w) n = w := by
  rw [← BitVec.eq_of_toNat_eq hn, formatXY_of_fieldGroup hg]

theorem formatXK_of_fieldKK {kk : Byte} (hg : (fieldGroup w).toNat = g.toNat)
    (hkk : (fieldKK w).toNat = kk.toNat) : formatXK g (fieldX w) kk = w := by
  rw [← BitVec.eq_of_toNat_eq hkk, formatXK_of_fieldGroup hg]

end Fields

/-- Groups 0x5 and 0x9 answer only at `n = 0`, and then the instruction they are given. -/
theorem decodeZeroNibble_eq_some {w : Word} {i j : Instr} (h : decodeZeroNibble w j = some i) :
    fieldN w = 0x0#4 ∧ j = i := by
  simpa [decodeZeroNibble] using h

theorem encode_of_decodeGroup0 {w : Word} {i : Instr} (h : decodeGroup0 w = some i) : encode i = w := by
  unfold decodeGroup0 at h
  split at h
  · next hw => cases h; exact hw.symm
  · split at h
    · next hw => cases h; exact hw.symm
    · cases h

theorem encode_of_decodeGroup8 {w : Word} {i : Instr} (hg : (fieldGroup w).toNat = 0x8)
    (h : decodeGroup8 w = some i) : encode i = w := by
  unfold decodeGroup8 at h
  split at h <;> cases h
  all_goals next hn => exact formatXY_of_fieldN hg hn

theorem encode_of_decodeGroupE {w : Word} {i : Instr} (hg : (fieldGroup w).toNat = 0xE)
    (h : decodeGroupE w = some i) : encode i = w := by
  unfold decodeGroupE at h
  split at h <;> cases h
  all_goals next hkk => exact formatXK_of_fieldKK hg hkk

theorem encode_of_decodeGroupF {w : Word} {i : Instr} (hg : (fieldGroup w).toNat = 0xF)
    (h : decodeGroupF w = some i) : encode i = w := by
  unfold decodeGroupF at h
  split at h <;> cases h
  all_goals next hkk => exact formatXK_of_fieldKK hg hkk

/-- The lookup drops no bit of a word it accepts: along each branch, groups 0x0 to 0xF in turn, the group and sub-op
compared and the operands read are the whole word. -/
theorem encode_of_decodeWord {w : Word} {i : Instr} (h : decodeWord w = some i) : encode i = w := by
  unfold decodeWord at h
  split at h <;> rename_i hg
  · exact encode_of_decodeGroup0 h
  · cases h; exact formatA_of_fieldGroup hg
  · cases h; exact formatA_of_fieldGroup hg
  · cases h; exact formatXK_of_fieldGroup hg
  · cases h; exact formatXK_of_fieldGroup hg
  · obtain ⟨hn, rfl⟩ := decodeZeroNibble_eq_some h
    exact formatXY_of_fieldN hg (congrArg BitVec.toNat hn)
  · cases h; exact formatXK_of_fieldGroup hg
  · cases h; exact formatXK_of_fieldGroup hg
  · exact encode_of_decodeGroup8 hg h
  · obtain ⟨hn, rfl⟩ := decodeZeroNibble_eq_some h
    exact formatXY_of_fieldN hg (congrArg BitVec.toNat hn)
  · cases h; exact formatA_of_fieldGroup hg
  · cases h; exact formatA_of_fieldGroup hg
  · cases h; exact formatXK_of_fieldGroup hg
  · cases h; exact formatXY_of_fieldGroup hg
  · exact encode_of_decodeGroupE hg h
  · exact encode_of_decodeGroupF hg h
  · cases h

/-- Settles O2. -/
theorem decodedWordEncodesBack : Obligations.DecodedWordEncodesBack :=
  fun _ _ => encode_of_decodeWord

/-! ## The rows of the opcode map -/

/-- Every instruction's row is one of the 34: a row does not depend on the operands. -/
theorem rowOf_mem_opcodeTable (i : Instr) : rowOf i ∈ opcodeTable := by
  cases i <;> simp [opcodeTable, rowSamples, rowOf]

/-- An instruction's word belongs to its row (R105). -/
theorem rowMatches_encode (i : Instr) : rowMatches (encode i) (rowOf i) = true := by
  cases i with
  | cls | ret => rfl
  | jp _ | call _ | ldI _ | jpV0 _ => exact Laws.RowPattern.group_of_formatA _ _ _ _ (by decide)
  | seImm _ _ | sneImm _ _ | ldImm _ _ | addImm _ _ | rnd _ _ =>
    exact Laws.RowPattern.group_of_formatXK _ _ _ _ _ (by decide)
  | drw _ _ _ => exact Laws.RowPattern.group_of_formatXYN _ _ _ _ _ _ (by decide)
  | seReg _ _ | sneReg _ _ | ldReg _ _ | or _ _ | and _ _ | xor _ _ | addReg _ _ | sub _ _ | shr _ _
  | subn _ _ | shl _ _ => exact Laws.RowPattern.nibble_of_formatXY _ _ _ _ _ _ (by decide)
  | skp _ | sknp _ | ldVxDT _ | ldVxK _ | ldDTVx _ | ldSTVx _ | addI _ | ldF _ | ldB _ | ldMemVx _
  | ldVxMem _ => exact Laws.RowPattern.byte_of_formatXS _ _ _ _ _ (by decide)

section Masks

variable {w p : Word} {m : String}

/-- A word of a 0xF000 row has the row's group. -/
theorem fieldGroup_of_rowMatches (h : rowMatches w ⟨m, 0xF000#16, p⟩ = true) : fieldGroup w = fieldGroup p := by
  have hp : formatXY (fieldGroup w) 0x0#4 0x0#4 0x0#4 = p := by simpa [rowMatches, and_maskGroup] using h
  rw [← hp, fieldGroup_formatXY]

/-- A word of a 0xF00F row has the row's group and low nibble. -/
theorem fieldN_of_rowMatches (h : rowMatches w ⟨m, 0xF00F#16, p⟩ = true) :
    fieldGroup w = fieldGroup p ∧ fieldN w = fieldN p := by
  have hp : formatXY (fieldGroup w) 0x0#4 0x0#4 (fieldN w) = p := by simpa [rowMatches, and_maskNibble] using h
  rw [← hp, fieldGroup_formatXY, fieldN_formatXY]
  exact ⟨rfl, rfl⟩

/-- A word of a 0xF0FF row has the row's group and low byte. -/
theorem fieldKK_of_rowMatches (h : rowMatches w ⟨m, 0xF0FF#16, p⟩ = true) :
    fieldGroup w = fieldGroup p ∧ fieldKK w = fieldKK p := by
  have hp : formatXK (fieldGroup w) 0x0#4 (fieldKK w) = p := by simpa [rowMatches, and_maskByte] using h
  rw [← hp, fieldGroup_formatXK, fieldKK_formatXK]
  exact ⟨rfl, rfl⟩

/-- A word of a 0xFFFF row is the row's pattern. -/
theorem eq_of_rowMatches (h : rowMatches w ⟨m, 0xFFFF#16, p⟩ = true) : w = p := by
  have hall : w &&& 0xFFFF#16 = w := BitVec.and_allOnes
  simpa [rowMatches, hall] using h

end Masks

/-- A word of an instruction's row decodes: what the row's mask keeps is what the lookup compares. -/
theorem decodeWord_isSome_of_rowMatches {w : Word} {j : Instr} (h : rowMatches w (rowOf j) = true) :
    (decodeWord w).isSome = true := by
  cases j with
  | cls | ret => rw [eq_of_rowMatches h]; rfl
  | jp _ | call _ | ldI _ | jpV0 _ | seImm _ _ | sneImm _ _ | ldImm _ _ | addImm _ _ | rnd _ _ | drw _ _ _ =>
    rw [decodeWord, fieldGroup_of_rowMatches h]; rfl
  | seReg _ _ | sneReg _ _ =>
    obtain ⟨hg, hn⟩ := fieldN_of_rowMatches h
    simp only [decodeWord, decodeZeroNibble, hg, hn]; rfl
  | ldReg _ _ | or _ _ | and _ _ | xor _ _ | addReg _ _ | sub _ _ | shr _ _ | subn _ _ | shl _ _ =>
    obtain ⟨hg, hn⟩ := fieldN_of_rowMatches h
    simp only [decodeWord, decodeGroup8, hg, hn]; rfl
  | skp _ | sknp _ =>
    obtain ⟨hg, hkk⟩ := fieldKK_of_rowMatches h
    simp only [decodeWord, decodeGroupE, hg, hkk]; rfl
  | ldVxDT _ | ldVxK _ | ldDTVx _ | ldSTVx _ | addI _ | ldF _ | ldB _ | ldMemVx _ | ldVxMem _ =>
    obtain ⟨hg, hkk⟩ := fieldKK_of_rowMatches h
    simp only [decodeWord, decodeGroupF, hg, hkk]; rfl

/-- A decoded word belongs to the row of what it decodes to, as the encoding of it. -/
theorem rowMatches_of_decodeWord {w : Word} {i : Instr} (h : decodeWord w = some i) :
    rowMatches w (rowOf i) = true := by
  rw [← encode_of_decodeWord h]
  exact rowMatches_encode i

/-- A word decodes exactly when some row of the map matches it. -/
theorem decodeWord_isSome_iff (w : Word) :
    (decodeWord w).isSome = true ↔ ∃ r ∈ opcodeTable, rowMatches w r = true := by
  constructor
  · intro h
    obtain ⟨i, hi⟩ := Option.isSome_iff_exists.mp h
    exact ⟨rowOf i, rowOf_mem_opcodeTable i, rowMatches_of_decodeWord hi⟩
  · rintro ⟨r, hr, hmatch⟩
    obtain ⟨j, -, rfl⟩ := List.mem_map.mp hr
    exact decodeWord_isSome_of_rowMatches hmatch

/-- Settles O3: acceptance by the masks of the rows, the row matched by the encoding of what is decoded. -/
theorem recognisedWordsAreTheRowsOfTheMap : Obligations.RecognisedWordsAreTheRowsOfTheMap :=
  ⟨fun w => Bool.eq_iff_iff.mpr ((decodeWord_isSome_iff w).trans List.any_eq_true.symm),
    fun _ _ => rowMatches_of_decodeWord⟩

end Sys2Proof
end

section
/-! PROOFS. Jumps and skips (41_control.md): where JP sends `pc`, and what a skip on an equality leaves in it. -/

namespace Sys2Proof

/-- Groups 0x5 and 0x9 recognise no word with a low nibble other than 0 (R157, R158). -/
theorem decodeWord_formatXY_eq_none {g n : Nibble} (hg : g = 0x5#4 ∨ g = 0x9#4) (hn : n ≠ 0x0#4) (x y : RegIx) :
    decodeWord (formatXY g x y n) = none := by
  obtain rfl | rfl := hg
  · simp [decodeWord, decodeZeroNibble, hn]
  · simp [decodeWord, decodeZeroNibble, hn]

end Sys2Proof

namespace Sys2Proof.Machine

/-- Zero extension keeps the number an address stands for (R102). -/
@[simp] theorem zextAddr_toNat (nnn : Addr12) : (zextAddr nnn).toNat = nnn.toNat :=
  BitVec.toNat_setWidth_of_le (by decide)

@[simp] theorem skipIf_pc (c : Bool) (s : State) : (skipIf c s).pc = if c then s.pc + 2#16 else s.pc := by
  rw [skipIf_eq, setPc_pc]

/-- A skip on equal bytes (R155, R157). -/
theorem skipIf_beq_pc (a b : Byte) (s : State) :
    (skipIf (a == b) s).pc = if a = b then s.pc + 2#16 else s.pc := by
  simp only [skipIf_pc, beq_iff_eq]

/-- A skip on different bytes (R156, R158). -/
theorem skipIf_bne_pc (a b : Byte) (s : State) :
    (skipIf (a != b) s).pc = if a = b then s.pc else s.pc + 2#16 := by
  simp only [skipIf_pc, bne_iff_ne, ite_not]

end Sys2Proof.Machine

namespace Sys2Proof.Safety

open Sys2Proof.Machine

/-- Settles O11: JP is a write of `pc` alone. -/
theorem jumpLoadsTheAddress : Obligations.JumpLoadsTheAddress :=
  fun s nnn => ⟨decodeWord_encode (.jp nnn), _, rfl, zextAddr_toNat nnn, onlyChanges_setPc s _⟩

/-- Settles O12: SE and SNE are skips on a register and the byte, equal or different. -/
theorem skipsOnAByte : Obligations.SkipsOnAByte := by
  intro s x kk
  constructor
  · exact ⟨decodeWord_encode (.seImm x kk), _, rfl, onlyChanges_skipIf _ s, skipIf_beq_pc _ _ s⟩
  · exact ⟨decodeWord_encode (.sneImm x kk), _, rfl, onlyChanges_skipIf _ s, skipIf_bne_pc _ _ s⟩

/-- Settles O13: SE and SNE are skips on two registers, equal or different, and their groups take the low nibble 0 alone. -/
theorem skipsOnTwoRegisters : Obligations.SkipsOnTwoRegisters := by
  intro s x y
  constructor
  · exact ⟨decodeWord_encode (.seReg x y), fun _ hn => decodeWord_formatXY_eq_none (.inl rfl) hn x y,
      _, rfl, onlyChanges_skipIf _ s, skipIf_beq_pc _ _ s⟩
  · exact ⟨decodeWord_encode (.sneReg x y), fun _ hn => decodeWord_formatXY_eq_none (.inr rfl) hn x y,
      _, rfl, onlyChanges_skipIf _ s, skipIf_bne_pc _ _ s⟩

end Sys2Proof.Safety
end

section
/-! PROOFS. Register loads and ALU (42_alu.md): the carry, NOT borrow and the byte difference as conditions and numbers,
and the result a flag-last write leaves in its destination. -/

namespace Sys2Proof.Machine

/-- The byte of a flag that states a comparison. -/
theorem flagByte_decide (p : Prop) [Decidable p] : flagByte (decide p) = if p then 1#8 else 0#8 := by
  simp only [flagByte, decide_eq_true_eq]

/-- The carry is 1 exactly when the exact sum exceeds 255 (R177). -/
theorem carryOut_eq (a b : Byte) : carryOut a b = if 255 < a.toNat + b.toNat then 1#8 else 0#8 :=
  flagByte_decide _

/-- NOT borrow is 1 exactly when the subtrahend is at most the minuend (R178, R180). -/
theorem notBorrow_eq (a b : Byte) : notBorrow a b = if b.toNat ≤ a.toNat then 1#8 else 0#8 :=
  flagByte_decide _

/-- A byte difference, modulo 256. -/
theorem byte_toNat_sub (a b : Byte) : (a - b).toNat = (a.toNat + 256 - b.toNat) % 256 := by
  have := b.isLt
  rw [BitVec.toNat_sub]
  omega

/-- The result of a flag-last write, as a number. -/
theorem toNat_getV_writeResultThenFlag_result (s : State) {x : RegIx} {r : Byte} (f : Byte) {n : Nat}
    (hr : r.toNat = n) (hx : x ≠ flagReg) : (getV (writeResultThenFlag s x r f) x).toNat = n := by
  rw [getV_writeResultThenFlag_result s r f hx, hr]

end Sys2Proof.Machine

namespace Sys2Proof.Safety

open Sys2Proof.Machine

/-- Settles O18: both loads are one register write. -/
theorem loadsOfARegister : Obligations.LoadsOfARegister := by
  intro s x y kk
  constructor
  · exact ⟨decodeWord_encode (.ldImm x kk), _, rfl, getV_setV_same s x _, registersKept_setV s x _, onlyChanges_setV s x _⟩
  · exact ⟨decodeWord_encode (.ldReg x y), _, rfl, getV_setV_same s x _, registersKept_setV s x _, onlyChanges_setV s x _⟩

/-- Settles O19: one register write, of a byte sum. -/
theorem addImmediateWrapsWithoutFlag : Obligations.AddImmediateWrapsWithoutFlag := by
  intro s x kk
  refine ⟨decodeWord_encode (.addImm x kk), _, rfl, ?_, registersKept_setV s x _, onlyChanges_setV s x _⟩
  rw [getV_setV_same, BitVec.toNat_add]

/-- Settles O21: a flag-last write of the byte sum and its carry. -/
theorem addSetsCarry : Obligations.AddSetsCarry := fun s x y =>
  ⟨decodeWord_encode (.addReg x y), _, rfl,
    toNat_getV_writeResultThenFlag_result s _ (BitVec.toNat_add _ _),
    (getV_writeResultThenFlag_flag s x _ _).trans (carryOut_eq _ _),
    registersKept_writeResultThenFlag s x _ _, onlyChanges_writeResultThenFlag s x _ _⟩

/-- Settles O22: flag-last writes of the byte difference, either way round, and its NOT borrow. -/
theorem subtractionsSetNotBorrow : Obligations.SubtractionsSetNotBorrow := by
  intro s x y
  constructor
  · exact ⟨decodeWord_encode (.sub x y), _, rfl,
      toNat_getV_writeResultThenFlag_result s _ (byte_toNat_sub _ _),
      (getV_writeResultThenFlag_flag s x _ _).trans (notBorrow_eq _ _),
      registersKept_writeResultThenFlag s x _ _, onlyChanges_writeResultThenFlag s x _ _⟩
  · exact ⟨decodeWord_encode (.subn x y), _, rfl,
      toNat_getV_writeResultThenFlag_result s _ (byte_toNat_sub _ _),
      (getV_writeResultThenFlag_flag s x _ _).trans (notBorrow_eq _ _),
      registersKept_writeResultThenFlag s x _ _, onlyChanges_writeResultThenFlag s x _ _⟩

end Sys2Proof.Safety
end

section
/-! PROOFS. Address register and memory transfers (43_index_memory.md). -/

namespace Sys2Proof.Safety

open Sys2Proof.Machine

/-- Settles O26: LD I is one write of `I`, of the zero-extended address. -/
theorem loadAddressRegister : Obligations.LoadAddressRegister :=
  fun s nnn => ⟨decodeWord_encode (.ldI nnn), _, rfl, zextAddr_toNat nnn, onlyChanges_setI s _⟩

end Sys2Proof.Safety
end

section
/-! PROOFS. The display (44_display.md): CLS is one write of the framebuffer. -/

namespace Sys2Proof.Safety

open Sys2Proof.Machine

/-- Settles O33: CLS writes the cleared framebuffer, whose pixels are all 0, and a framebuffer write changes the display alone. -/
theorem clearDisplay : Obligations.ClearDisplay :=
  fun s => ⟨decodeWord_encode .cls, setFb s clearFb, rfl, pixel_clearFb, onlyChanges_setFb s clearFb⟩

end Sys2Proof.Safety
end

section
/-! PROOFS. Key input and timers (45_input_timers.md): the three timer instructions are one write each, and a tick
counts either timer down by one, clamped at 0. -/

namespace Sys2Proof.Machine

/-- A tick takes one off the delay timer, clamped at 0 (R270). -/
theorem toNat_tickTimers_dt (s : State) : (tickTimers s).dt.toNat = s.dt.toNat - 1 :=
  countDown_toNat s.dt

/-- A tick takes one off the sound timer, clamped at 0 (R270). -/
theorem toNat_tickTimers_st (s : State) : (tickTimers s).st.toNat = s.st.toNat - 1 :=
  countDown_toNat s.st

end Sys2Proof.Machine

namespace Sys2Proof.Safety

open Sys2Proof.Machine

/-- Settles O37: one write of a register or of a timer each, and the next tick counts the written timer down. -/
theorem timerReadAndWrites : Obligations.TimerReadAndWrites := by
  intro s x
  refine ⟨?read, ?writeDelay, ?writeSound⟩
  case read =>
    exact ⟨decodeWord_encode (.ldVxDT x), _, rfl, getV_setV_same s x _, registersKept_setV s x _, onlyChanges_setV s x _⟩
  case writeDelay =>
    exact ⟨decodeWord_encode (.ldDTVx x), setDT s (getV s x), rfl, rfl, onlyChanges_setDT s _, toNat_tickTimers_dt _⟩
  case writeSound =>
    exact ⟨decodeWord_encode (.ldSTVx x), setST s (getV s x), rfl, rfl, onlyChanges_setST s _, toNat_tickTimers_st _⟩

end Sys2Proof.Safety
end

section
/-! PROOFS. Host actions (60_exceptions.md): a timer tick is one write of DT and one of ST. -/

namespace Sys2Proof.Safety

open Sys2Proof.Machine

/-- A tick changes the two timers alone (R270). -/
theorem onlyChanges_tickTimers (s : State) : onlyChanges [.dt, .st] s (tickTimers s) :=
  onlyChanges_trans (onlyChanges_mono (by simp) (onlyChanges_setDT s (countDown s.dt)))
    (onlyChanges_mono (by simp) (onlyChanges_setST _ (countDown s.st)))

/-- Settles O52: natural subtraction is the clamp at 0 of both timers, and a tick is a write of DT and then one of ST. -/
theorem tickCountsBothTimersDown : Obligations.TickCountsBothTimersDown := by
  have clamp : ∀ n : Nat, n - 1 = if 0 < n then n - 1 else 0 := by intro n; split <;> omega
  intro s
  exact ⟨(toNat_tickTimers_dt s).trans (clamp _), (toNat_tickTimers_st s).trans (clamp _), onlyChanges_tickTimers s⟩

end Sys2Proof.Safety
end

section
/-! PROOFS. The opcode map (30_encoding.md R105): no word matches two of its rows, and words written out from it. -/

namespace Sys2Proof

/-- A word that matches two rows makes their patterns agree wherever both masks look. -/
theorem pattern_and_mask_comm_of_rowMatches {w : Word} {r q : OpcodeRow} (hr : rowMatches w r = true)
    (hq : rowMatches w q = true) : r.pattern &&& q.mask = q.pattern &&& r.mask := by
  have hrow : w &&& r.mask = r.pattern := beq_iff_eq.mp hr
  have hcol : w &&& q.mask = q.pattern := beq_iff_eq.mp hq
  calc r.pattern &&& q.mask
      = w &&& r.mask &&& q.mask := by rw [hrow]
    _ = w &&& q.mask &&& r.mask := by ac_rfl
    _ = q.pattern &&& r.mask := by rw [hcol]

/-- Two of the 34 rows whose patterns agree wherever both masks look are one row. -/
theorem opcodeTable_eq_of_pattern_and_mask_comm :
    ∀ r ∈ opcodeTable, ∀ q ∈ opcodeTable, r.pattern &&& q.mask = q.pattern &&& r.mask → r = q := by
  decide

/-- Settles O4: a word in two rows makes their patterns agree, which only one and the same row does. -/
theorem opcodeRowsAreDisjoint : Obligations.OpcodeRowsAreDisjoint :=
  ⟨rfl, fun _ r hr q hq hwr hwq =>
    opcodeTable_eq_of_pattern_and_mask_comm r hr q hq (pattern_and_mask_comm_of_rowMatches hwr hwq)⟩

/-- Settles O5, by evaluation of the decoder on the words. -/
theorem writtenOutWordsDecode : Obligations.WrittenOutWordsDecode := by
  unfold Obligations.WrittenOutWordsDecode
  decide

end Sys2Proof
end

section
/-! PROOFS. The step (40_cycle.md): fetch, the two cases of a step, its totality, and how it moves `pc`. -/

namespace Sys2Proof.Machine

/-- A step on a word that decodes runs its instruction after the advance of `pc` (R134). -/
theorem step_of_decodeWord_eq_some {s : State} {i : Instr} (h : decodeWord (fetchWord s) = some i) :
    step s = exec i (advancePc s) := by
  rw [step, h]

/-- A step on an unrecognised word reports it after the advance of `pc` (R135). -/
theorem step_of_decodeWord_eq_none {s : State} (h : decodeWord (fetchWord s) = none) :
    step s = .next (reportUnknown (advancePc s) (fetchWord s) s.pc) := by
  rw [step, h]

/-- Fx0A with a key pressed takes the key found (R244). -/
theorem exec_ldVxK_of_firstKey_eq_some {s : State} {k : Fin 16} (x : RegIx) (h : firstKey s = some k) :
    exec (.ldVxK x) s = .next (setV s x (BitVec.ofNat 8 k.val)) := by
  rw [exec, execLdVxK, h]

/-- Fx0A with no key pressed rolls `pc` back (R244, D30). -/
theorem exec_ldVxK_of_firstKey_eq_none {s : State} (x : RegIx) (h : firstKey s = none) :
    exec (.ldVxK x) s = .next (setPc s (s.pc - 2#16)) := by
  rw [exec, execLdVxK, h]

/-- Every instruction completes: Fx0A with a key or without one, any other by its one arm (R136). -/
theorem exec_eq_next (i : Instr) (s : State) : ∃ t, exec i s = .next t := by
  cases i with
  | ldVxK x =>
    cases hk : firstKey s with
    | some k => exact ⟨_, exec_ldVxK_of_firstKey_eq_some x hk⟩
    | none => exact ⟨_, exec_ldVxK_of_firstKey_eq_none x hk⟩
  | _ => exact ⟨_, rfl⟩

@[simp] theorem keyOperandState_pc (s : State) (k : Byte) : (keyOperandState s k).pc = s.pc := by
  rw [keyOperandState_frame]

/-- A skip of an instruction at `a` leaves `pc` at `a + 2` or `a + 4` (R139). -/
theorem skipIf_pc_eq_or (c : Bool) {s : State} {a : Word} (ha : s.pc = a + 2#16) :
    (skipIf c s).pc = a + 2#16 ∨ (skipIf c s).pc = a + 4#16 := by
  rw [skipIf_pc, ha]
  cases c
  · exact .inl rfl
  · exact .inr (BitVec.add_assoc a 2#16 2#16)

end Sys2Proof.Machine

namespace Sys2Proof.Safety

open Sys2Proof.Machine

/-- A report changes the reports alone (R135). -/
theorem onlyChanges_reportUnknown (s : State) (op a : Word) : onlyChanges [.diag] s (reportUnknown s op a) := by
  intro p hp
  cases p <;> simp_all [unchanged]

/-- Settles O6: masking is the remainder modulo 4096. -/
theorem fetchIsBigEndianAndMasked : Obligations.FetchIsBigEndianAndMasked := by
  intro s
  rw [fetchWord_toNat, readByte, readByte, effective_eq_mod, effective_eq_mod]

/-- Settles O7. -/
theorem stepRunsTheDecodedInstruction : Obligations.StepRunsTheDecodedInstruction :=
  fun s _ hi => ⟨step_of_decodeWord_eq_some hi, rfl, onlyChanges_advancePc s⟩

/-- Settles O8: the step is the advance of `pc` and then one report. -/
theorem unrecognisedWordIsAReportedNoOp : Obligations.UnrecognisedWordIsAReportedNoOp :=
  fun s hn => ⟨_, step_of_decodeWord_eq_none hn, rfl, rfl,
    onlyChanges_trans (onlyChanges_mono (by simp) (onlyChanges_advancePc s))
      (onlyChanges_mono (by simp) (onlyChanges_reportUnknown (advancePc s) _ _))⟩

/-- Settles O9: the step runs an instruction, and every instruction completes, or it reports. -/
theorem everyStepYieldsANextState : Obligations.EveryStepYieldsANextState := by
  intro s
  cases hd : decodeWord (fetchWord s) with
  | some i => rw [step_of_decodeWord_eq_some hd]; exact exec_eq_next i _
  | none => exact ⟨_, step_of_decodeWord_eq_none hd⟩

/-- An instruction at `a`, executed with `pc` past it, moves `pc` only as R36 lists. -/
theorem exec_pcMoveAllowed {i : Instr} {s t : State} {a : Word} (h : exec i s = .next t)
    (ha : s.pc = a + 2#16) : pcMoveAllowed a t.pc i := by
  cases i with
  | jp _ | call _ => cases h; rfl
  | ret | jpV0 _ => trivial
  | seImm _ _ | sneImm _ _ | seReg _ _ | sneReg _ _ => cases h; exact skipIf_pc_eq_or _ ha
  | skp _ | sknp _ => cases h; exact skipIf_pc_eq_or _ ((keyOperandState_pc s _).trans ha)
  | ldVxK _ =>
    obtain ⟨k, -, rfl⟩ | ⟨-, rfl⟩ := execLdVxK_cases h
    · exact .inl ha
    · refine .inr ?_
      rw [setPc_pc, ha, BitVec.add_sub_cancel]
  | _ =>
    have hkept : unchanged s t .pc := exec_onlyChanges h .pc (by simp [writtenParts])
    exact Eq.trans hkept ha

/-- Settles O42: the instruction runs with `pc` past its address. -/
theorem pcMovesOnlyAsListed : Obligations.PcMovesOnlyAsListed := by
  intro s t i hi h
  rw [step_of_decodeWord_eq_some hi] at h
  exact exec_pcMoveAllowed h (advancePc_pc s)

/-- Settles O49: each byte a step stores keeps the canonical form, and no step changes memory otherwise. -/
theorem stepKeepsTheMemoryInvariant : Obligations.StepKeepsTheMemoryInvariant :=
  fun _ _ => step_keeps_memoryInvariant

end Sys2Proof.Safety
end

section
/-! PROOFS. The call stack and JP V0 (41_control.md): what CALL and RET leave in `pc`, `sp` and the slots. -/

namespace Sys2Proof.Machine

/-! ## Pushes -/

/-- A push below capacity leaves the return address in the slot above (R154). -/
theorem getStack_pushReturn_below {s : State} (ret : Word) (h : s.sp.val < 15) :
    getStack (pushReturn s ret) (pushReturn s ret).sp = ret := by
  rw [pushReturn_below ret h]
  exact getStack_setStack_same _ _ ret

/-- A push below capacity writes the slot above and no other (R154). -/
theorem getStack_pushReturn_below_other {s : State} (ret : Word) (h : s.sp.val < 15) {j : Fin 16}
    (hj : j.val ≠ s.sp.val + 1) : getStack (pushReturn s ret) j = getStack s j := by
  rw [pushReturn_below ret h, getStack_setStack_other _ ret (fun e => hj (congrArg Fin.val e)), getStack_setSp]

/-- A push at capacity writes slot 15 at most (R154). -/
theorem getStack_pushReturn_full_other {s : State} (ret : Word) (h : s.sp.val = 15) {j : Fin 16} (hj : j ≠ 15) :
    getStack (pushReturn s ret) j = getStack s j := by
  rw [pushReturn_full ret (by omega)]
  cases overflowMode with
  | overwriteTop => exact getStack_setStack_other s ret hj
  | dropPush => rfl

/-- A push at capacity leaves in slot 15 what `STACK_OVERFLOW` says (R154, D9). -/
theorem getStack_pushReturn_full {s : State} (ret : Word) (h : s.sp.val = 15) :
    getStack (pushReturn s ret) 15 = match overflowMode with
      | .overwriteTop => ret
      | .dropPush => getStack s 15 := by
  rw [pushReturn_full ret (by omega)]
  cases overflowMode with
  | overwriteTop => exact getStack_setStack_same s 15 ret
  | dropPush => rfl

/-! ## Pops -/

/-- A pop above depth 0 takes `pc` from the top slot (R152). -/
theorem popReturn_pc_nonempty {s : State} (h : s.sp.val ≠ 0) : (popReturn s).pc = getStack s s.sp := by
  rw [popReturn_nonempty h, setSp_pc, setPc_pc]

/-- A pop at depth 0 leaves in `pc` what `STACK_UNDERFLOW` says (R152, D10). -/
theorem popReturn_pc_empty {s : State} (h : s.sp = 0) :
    (popReturn s).pc = match underflowMode with
      | .readSlot0 => getStack s 0
      | .dropPop => s.pc := by
  rw [popReturn_empty h]
  cases underflowMode <;> rfl

/-- Zero extension keeps the number a byte stands for (R10). -/
@[simp] theorem zextByte_toNat (b : Byte) : (zextByte b).toNat = b.toNat :=
  BitVec.toNat_setWidth_of_le (by decide)

/-- A register and an address add up below 2^16 (R159). -/
theorem toNat_zextByte_add_zextAddr (b : Byte) (nnn : Addr12) :
    (zextByte b + zextAddr nnn).toNat = b.toNat + nnn.toNat := by
  have hb := b.isLt
  have hn := nnn.isLt
  rw [BitVec.toNat_add, zextAddr_toNat, zextByte_toNat]
  omega

end Sys2Proof.Machine

namespace Sys2Proof.Safety

open Sys2Proof.Machine

/-- Settles O14: the pop above depth 0 and the pop at depth 0. -/
theorem returnPopsTheStack : Obligations.ReturnPopsTheStack := by
  intro s
  refine ⟨popReturn s, rfl, onlyChanges_popReturn s, getStack_popReturn s, fun hne => ?_, fun h0 => ⟨?_, ?_⟩⟩
  · have hpos : s.sp.val ≠ 0 := fun e => hne (Fin.ext e)
    have hsp := popReturn_sp s
    exact ⟨popReturn_pc_nonempty hpos, by omega⟩
  · exact Fin.ext ((popReturn_sp s).trans (by rw [h0]; rfl))
  · exact popReturn_pc_empty h0

/-- Settles O15: the push below capacity and the push at capacity, then the jump. -/
theorem callPushesTheAdvancedPc : Obligations.CallPushesTheAdvancedPc := by
  intro s nnn
  have hsp : (pushReturn s s.pc).sp.val = min (s.sp.val + 1) 15 := pushReturn_sp s s.pc
  refine ⟨_, rfl, onlyChanges_setPc_pushReturn s _ _, zextAddr_toNat nnn, fun hlt => ?below, fun hfull => ?full⟩
  case below =>
    have hup : (pushReturn s s.pc).sp.val = s.sp.val + 1 := by omega
    refine ⟨hup, getStack_pushReturn_below s.pc hlt, fun j hj => getStack_pushReturn_below_other s.pc hlt ?_⟩
    exact fun e => hj (Fin.ext (e.trans hup.symm))
  case full =>
    exact ⟨Fin.ext (by simp only [setPc_sp]; omega), fun j hj => getStack_pushReturn_full_other s.pc hfull hj,
      getStack_pushReturn_full s.pc hfull⟩

/-- Settles O16: one write of `pc`, of a sum that stays below 2^16. -/
theorem jumpWithOffsetAddsRegisterZero : Obligations.JumpWithOffsetAddsRegisterZero :=
  fun s nnn => ⟨_, rfl, toNat_zextByte_add_zextAddr _ nnn, onlyChanges_setPc s _⟩

/-- CALL below capacity and then RET: `pc` and `sp` as before, one slot written. -/
theorem popReturn_pushReturn_below {s : State} (target : Word) (h : s.sp.val < 15) :
    (popReturn (setPc (pushReturn s s.pc) target)).pc = s.pc ∧
      (popReturn (setPc (pushReturn s s.pc) target)).sp = s.sp := by
  have hsp : (pushReturn s s.pc).sp.val = min (s.sp.val + 1) 15 := pushReturn_sp s s.pc
  have hpos : (setPc (pushReturn s s.pc) target).sp.val ≠ 0 := by rw [setPc_sp]; omega
  constructor
  · exact (popReturn_pc_nonempty hpos).trans (getStack_pushReturn_below s.pc h)
  · refine Fin.ext ?_
    rw [popReturn_sp, setPc_sp]
    omega

/-- Settles O17: RET undoes the push below capacity, so that of all a CALL and a RET may change only the slots do. -/
theorem callThenReturnComesBack : Obligations.CallThenReturnComesBack := by
  intro s nnn hlt
  obtain ⟨hpc, hsp⟩ := popReturn_pushReturn_below (zextAddr nnn) hlt
  refine ⟨setPc (pushReturn s s.pc) (zextAddr nnn), _, rfl, rfl, hpc, hsp, fun j hj => ?_, fun p hp => ?_⟩
  · rw [getStack_popReturn, getStack_setPc]
    exact getStack_pushReturn_below_other s.pc hlt hj
  · by_cases hp' : p = .pc
    · rw [hp']; exact hpc
    · exact onlyChanges_trans (onlyChanges_setPc_pushReturn s s.pc (zextAddr nnn)) (onlyChanges_popReturn _) p
        (by simp_all)

end Sys2Proof.Safety
end

section
/-! PROOFS. Register loads and ALU (42_alu.md): the bitwise operations, the shifts, the flag-last order and the draws. -/

namespace Sys2Proof.Machine

/-- A right shift by one halves (R179). -/
theorem toNat_shiftRight_one (b : Byte) : (b >>> 1).toNat = b.toNat / 2 := by
  rw [BitVec.toNat_ushiftRight, Nat.shiftRight_eq_div_pow]

/-- A left shift by one doubles modulo 256 (R181). -/
theorem toNat_shiftLeft_one (b : Byte) : (b <<< 1).toNat = b.toNat * 2 % 256 := by
  rw [BitVec.toNat_shiftLeft, Nat.shiftLeft_eq]

/-- The bit a right shift moves out is the remainder modulo 2 (R179). -/
theorem toNat_shiftedOutRight (b : Byte) : (shiftedOutRight b).toNat = b.toNat % 2 := by
  rw [shiftedOutRight, BitVec.toNat_and]
  exact Nat.and_one_is_mod b.toNat

/-- The bit a left shift moves out is the quotient by 128 (R181). -/
theorem toNat_shiftedOutLeft (b : Byte) : (shiftedOutLeft b).toNat = b.toNat / 128 := by
  rw [shiftedOutLeft, BitVec.toNat_ushiftRight, Nat.shiftRight_eq_div_pow]

end Sys2Proof.Machine

namespace Sys2Proof.Safety

open Sys2Proof.Machine

/-- Settles O20: one register write each, of a byte given bit by bit. -/
theorem bitwiseOperationsWriteNoFlag : Obligations.BitwiseOperationsWriteNoFlag := by
  intro s x y
  refine ⟨⟨_, rfl, registersKept_setV s x _, onlyChanges_setV s x _, fun k => ?or⟩,
    ⟨_, rfl, registersKept_setV s x _, onlyChanges_setV s x _, fun k => ?and⟩,
    ⟨_, rfl, registersKept_setV s x _, onlyChanges_setV s x _, fun k => ?xor⟩⟩
  case or => rw [getV_setV_same, BitVec.getLsbD_or]
  case and => rw [getV_setV_same, BitVec.getLsbD_and]
  case xor => rw [getV_setV_same, BitVec.getLsbD_xor]

/-- Settles O23: flag-last writes of the shifted byte and the bit moved out of it. -/
theorem shiftsSetTheBitShiftedOut : Obligations.ShiftsSetTheBitShiftedOut := by
  intro s x y
  constructor
  · exact ⟨decodeWord_encode (.shr x y), _, rfl,
      toNat_getV_writeResultThenFlag_result s _ (toNat_shiftRight_one _),
      (congrArg BitVec.toNat (getV_writeResultThenFlag_flag s x _ _)).trans (toNat_shiftedOutRight _),
      registersKept_writeResultThenFlag s x _ _, onlyChanges_writeResultThenFlag s x _ _⟩
  · exact ⟨decodeWord_encode (.shl x y), _, rfl,
      toNat_getV_writeResultThenFlag_result s _ (toNat_shiftLeft_one _),
      (congrArg BitVec.toNat (getV_writeResultThenFlag_flag s x _ _)).trans (toNat_shiftedOutLeft _),
      registersKept_writeResultThenFlag s x _ _, onlyChanges_writeResultThenFlag s x _ _⟩

/-- A draw writes no register but VF (R222). -/
theorem registersKept_execDrw {s t : State} {x y : RegIx} {n : Nibble} (h : exec (.drw x y n) s = .next t) :
    registersKeptExcept [flagReg] s t := by
  intro r hr
  have hne : r ≠ flagReg := by simpa using hr
  exact exec_getV_of_not_mayWriteV h (beq_eq_false_iff_ne.mpr hne)

/-- A flag-last write of a result and a flag ends with the flag in VF, and with the result in any other destination (R137). -/
theorem writeResultThenFlag_flag_and_result (s : State) (x : RegIx) {r f g : Byte} (hg : f = g) :
    getV (writeResultThenFlag s x r f) flagReg = g ∧ (x ≠ flagReg → getV (writeResultThenFlag s x r f) x = r) :=
  ⟨(getV_writeResultThenFlag_flag s x r f).trans hg, getV_writeResultThenFlag_result s r f⟩

/-- Settles O10: five flag-last writes, and a draw, which writes VF and pixels. -/
theorem flagIsWrittenLast : Obligations.FlagIsWrittenLast := by
  intro s x y
  refine ⟨⟨_, rfl, ?add⟩, ⟨_, rfl, ?sub⟩, ⟨_, rfl, ?shr⟩, ⟨_, rfl, ?subn⟩, ⟨_, rfl, ?shl⟩,
    fun n => ⟨_, rfl, registersKept_execDrw rfl, exec_onlyChanges (i := .drw x y n) rfl⟩⟩
  case add => exact writeResultThenFlag_flag_and_result s x (carryOut_eq _ _)
  case sub => exact writeResultThenFlag_flag_and_result s x (notBorrow_eq _ _)
  case shr => exact writeResultThenFlag_flag_and_result s x rfl
  case subn => exact writeResultThenFlag_flag_and_result s x (notBorrow_eq _ _)
  case shl => exact writeResultThenFlag_flag_and_result s x rfl

/-- Settles O24: the counter advances and then one register is written. -/
theorem randomByteIsMasked : Obligations.RandomByteIsMasked :=
  fun s x kk => ⟨_, rfl, getV_setV_same (countRandom s) x _, rfl, registersKept_setV (countRandom s) x _,
    exec_onlyChanges (i := .rnd x kk) rfl⟩

/-! ## Who draws -/

theorem rndDraws_mem_writtenParts {i : Instr} (h : Part.rndDraws ∈ writtenParts i) : ∃ x kk, i = .rnd x kk := by
  cases i <;> simp_all [writtenParts]

theorem keyDraws_mem_writtenParts {i : Instr} (h : Part.keyDraws ∈ writtenParts i) :
    ∃ x, i = .skp x ∨ i = .sknp x := by
  cases i <;> simp_all [writtenParts]

/-- A key skip on a register inside the latch draws nothing (R240). -/
theorem keyDraws_exec_key_skip {s t : State} {x : RegIx} {i : Instr} (hi : i = .skp x ∨ i = .sknp x)
    (h : exec i s = .next t) (hx : (getV s x).toNat < 16) : t.keyDraws = s.keyDraws := by
  have hkey : (keyOperandState s (getV s x)).keyDraws = s.keyDraws := by rw [(keyOperand_inside s hx).2]
  obtain rfl | rfl := hi
  all_goals
    cases h
    rw [skipIf_eq, setPc_keyDraws, hkey]

/-- Settles O25: the counters are parts that RND and the key skips alone may write, and a key skip inside the latch
leaves its counter as it was. -/
theorem onlyRandomAndKeySkipsDraw : Obligations.OnlyRandomAndKeySkipsDraw := by
  intro s t h
  constructor
  · intro hne
    obtain hkept | ⟨i, hi, hw⟩ := step_unchanged_or_written h .rndDraws (by decide) (by decide)
    · exact absurd hkept hne
    · obtain ⟨x, kk, rfl⟩ := rndDraws_mem_writtenParts hw
      exact ⟨x, kk, hi⟩
  · intro hne
    obtain hkept | ⟨i, hi, hw⟩ := step_unchanged_or_written h .keyDraws (by decide) (by decide)
    · exact absurd hkept hne
    · obtain ⟨x, hx⟩ := keyDraws_mem_writtenParts hw
      have hexec : exec i (advancePc s) = .next t := (step_of_decodeWord_eq_some hi).symm.trans h
      have hlarge : 15 < (getV s x).toNat := by
        by_contra hsmall
        have hinside : (getV (advancePc s) x).toNat < 16 := by rw [getV_advancePc]; omega
        have hkept : t.keyDraws = (advancePc s).keyDraws := keyDraws_exec_key_skip hx hexec hinside
        exact hne hkept
      exact ⟨x, hlarge, hx.imp (fun e => hi.trans (congrArg some e)) (fun e => hi.trans (congrArg some e))⟩

end Sys2Proof.Safety
end

section
/-! PROOFS. Address register and memory transfers (43_index_memory.md): what a run of writes from `I` leaves in memory
and in `faulted`, what a step stores, and who stores. -/

namespace Sys2Proof.Machine

/-! ## Runs of writes from `I` -/

section Stores

variable (s : State) (bs : List Byte)

/-- Byte `k` of a run of writes from `I` is read back at `I + k`. -/
theorem readByte_writeBytes_indexed {k : Nat} (hk : k < bs.length) (hl : bs.length ≤ 4096) :
    readByte (writeBytes s (indexed s 0) bs) (indexed s k) = bs[k] :=
  readByte_writeBytes s (indexed s 0) k bs hk hl

/-- An address that no byte of a run of writes from `I` goes to reads as before. -/
theorem readByte_writeBytes_indexed_other {a : Nat}
    (h : ∀ k < bs.length, effective a ≠ effective (indexed s k)) :
    readByte (writeBytes s (indexed s 0) bs) a = readByte s a :=
  readByte_writeBytes_other s (indexed s 0) a bs (fun k hk => (h k hk).symm)

/-- A run of writes from `I` sets `faulted` when one of its addresses is marked (R78). -/
theorem faulted_writeBytes_indexed :
    (writeBytes s (indexed s 0) bs).faulted =
      (s.faulted || (List.range bs.length).any (fun k => marksGlyphWrite (indexed s k))) := by
  rw [writeBytes_eq]
  rfl

/-- A register up to `x` that Fx55 stored is read back at its address (R205). -/
theorem readByte_writeBytes_regsUpTo {x r : RegIx} (hr : r.toNat ≤ x.toNat) :
    readByte (writeBytes s (indexed s 0) (regsUpTo s x)) (indexed s r.toNat) = getV s r := by
  have hx := x.isLt
  rw [readByte_writeBytes_indexed s _ (by rw [regsUpTo_length]; omega) (by rw [regsUpTo_length]; omega),
    regsUpTo_get, regIx_toNat]

end Stores

/-- The sum of `I` and a register, modulo 2^16 (R202). -/
theorem toNat_add_zextByte (w : Word) (b : Byte) : (w + zextByte b).toNat = (w.toNat + b.toNat) % 65536 := by
  rw [BitVec.toNat_add, zextByte_toNat]

/-- `FONT_BASE` leaves room for the glyph table below 0x200 (R8). -/
theorem fontBase_lt : fontBase < 433 := Config.fontBase.isLt

/-- The address of a glyph never wraps (R203). -/
theorem glyphAddress_toNat (b : Byte) : (glyphAddress b).toNat = fontBase + 5 * b.toNat := by
  have hb := b.isLt
  have hf := fontBase_lt
  rw [glyphAddress, BitVec.toNat_ofNat]
  omega

/-- A number below 256 is the number of its byte. -/
theorem toNat_ofNat_byte {n : Nat} (h : n < 256) : (BitVec.ofNat 8 n).toNat = n := by
  rw [BitVec.toNat_ofNat]
  omega

/-- The glyph region holds the 80 bytes from `FONT_BASE` on (R77). -/
theorem inGlyphRegion_fontBase_add {k : Nat} (hk : k < 80) : inGlyphRegion (fontBase + k) = true := by
  rw [inGlyphRegion_iff, glyphBytes]
  omega

/-- A write at a glyph's address is marked when `GLYPH_WRITE` is `FAULT` (R78). -/
theorem marksGlyphWrite_of_glyph {b k : Nat} (hk : k < 80) (hb : effective b = effective (fontBase + k))
    (hmode : glyphWriteMode = .fault) : marksGlyphWrite b = true := by
  have hf := fontBase_lt
  have hidx : effective b = fontBase + k := by rw [hb, effective_eq_mod]; omega
  rw [marksGlyphWrite, hidx, inGlyphRegion_fontBase_add hk, hmode]
  rfl

end Sys2Proof.Machine

namespace Sys2Proof.Safety

open Sys2Proof.Machine

/-! ## The transfers -/

/-- Settles O27: one write of `I`, of a sum modulo 2^16. -/
theorem addToAddressRegister : Obligations.AddToAddressRegister :=
  fun s x => ⟨decodeWord_encode (.addI x), _, rfl, toNat_add_zextByte s.i _, onlyChanges_setI s _⟩

/-- Settles O28: one write of `I`, of an address that does not wrap. -/
theorem pointAtGlyph : Obligations.PointAtGlyph :=
  fun s _ => ⟨_, rfl, glyphAddress_toNat _, Nat.add_le_add_right (Nat.le_of_lt_succ fontBase_lt) 80,
    onlyChanges_setI s _⟩

/-- Settles O29: a run of three writes from `I`, of the digits. -/
theorem storeDecimalDigits : Obligations.StoreDecimalDigits := by
  intro s x
  have hx := (getV s x).isLt
  have digit {k : Nat} (hk : k < 3) :=
    readByte_writeBytes_indexed s (decimalDigits (getV s x)) hk (show 3 ≤ 4096 by decide)
  refine ⟨_, rfl, ?hundreds, ?tens, ?units, fun a ha => ?other, ?faulted, onlyChanges_writeBytes s _ _⟩
  case hundreds => exact (congrArg BitVec.toNat (digit (k := 0) (by decide))).trans (toNat_ofNat_byte (by omega))
  case tens => exact (congrArg BitVec.toNat (digit (k := 1) (by decide))).trans (toNat_ofNat_byte (by omega))
  case units => exact (congrArg BitVec.toNat (digit (k := 2) (by decide))).trans (toNat_ofNat_byte (by omega))
  case other => exact readByte_writeBytes_indexed_other s _ ha
  case faulted =>
    rw [faulted_writeBytes_indexed]
    simp [decimalDigits, List.range_succ, Bool.or_assoc]

/-- Settles O30: a run of `x + 1` writes from `I`, of the registers. -/
theorem storeRegisters : Obligations.StoreRegisters := by
  intro s x
  refine ⟨_, rfl, fun r hr => readByte_writeBytes_regsUpTo s hr, fun a ha => ?other, ?faulted,
    onlyChanges_writeBytes s _ _⟩
  case other =>
    refine readByte_writeBytes_indexed_other s _ fun k hk => ha k ?_
    rw [regsUpTo_length] at hk
    omega
  case faulted => rw [faulted_writeBytes_indexed, regsUpTo_length]

/-- Settles O31: each register up to `x` reads the byte of its address, each above it as before. -/
theorem loadRegisters : Obligations.LoadRegisters := by
  intro s x
  obtain ⟨-, hload⟩ := loadRegs_spec s x
  exact ⟨_, rfl, fun r hr => (hload r).trans (if_pos hr), fun r hr => (hload r).trans (if_neg (by omega)),
    onlyChanges_loadRegs s x⟩

/-- Settles O32: a later load reads the addresses of the store in the memory the store left. -/
theorem storeThenLoadRegistersRestores : Obligations.StoreThenLoadRegistersRestores := by
  intro s x
  refine ⟨_, rfl, fun u hmem hi => ⟨_, rfl, fun r hr => ?_⟩⟩
  calc getV (loadRegs u x) r
      = readByte u (indexed u r.toNat) := ((loadRegs_spec u x).2 r).trans (if_pos hr)
    _ = readByte (writeBytes s (indexed s 0) (regsUpTo s x)) (indexed s r.toNat) := by
        have haddr : indexed u r.toNat = indexed s r.toNat := by rw [indexed, hi, indexed]
        rw [haddr, readByte, hmem, readByte]
    _ = getV s r := readByte_writeBytes_regsUpTo s hr

/-! ## Who stores -/

/-- An instruction stores its bytes at consecutive addresses from `I` on. -/
theorem storeAddresses_eq (s : State) (i : Instr) :
    storeAddresses s i = (List.range (storedBytes s i).length).map (indexed s) := by
  cases i with
  | ldMemVx x => rw [storedBytes, regsUpTo_length, storeAddresses]
  | _ => rfl

/-- The advance of `pc` moves no store. -/
theorem storeAddresses_advancePc (s : State) (i : Instr) : storeAddresses (advancePc s) i = storeAddresses s i := by
  cases i <;> rfl

/-- A byte at none of an instruction's store addresses reads as before it (R76). -/
theorem exec_readByte_other {i : Instr} {s t : State} {a : Nat} (h : exec i s = .next t)
    (ha : ∀ b ∈ storeAddresses s i, effective b ≠ effective a) : readByte t a = readByte s a := by
  rw [readByte, readByte, exec_mem h]
  refine memGet_placeBytes_other _ _ _ _ fun k hk => ha (indexed s k) ?_
  rw [storeAddresses_eq]
  exact List.mem_map_of_mem (List.mem_range.mpr hk)

/-- An instruction sets `faulted` when one of its store addresses is marked, and never clears it (R78). -/
theorem exec_faulted {i : Instr} {s t : State} (h : exec i s = .next t) :
    t.faulted = (s.faulted || (storeAddresses s i).any marksGlyphWrite) := by
  cases i with
  | ldB _ | ldMemVx _ =>
    cases h
    rw [storeAddresses_eq, List.any_map]
    exact faulted_writeBytes_indexed s _
  | _ =>
    have hkept : unchanged s t .faulted := exec_onlyChanges h .faulted (by simp [writtenParts])
    exact Eq.trans hkept (Bool.or_false _).symm

/-- A byte reads as before a step, or the step's instruction stores to its masked address (R76). -/
theorem step_readByte_kept_or_stored {s t : State} (h : step s = .next t) (a : Nat) :
    readByte t a = readByte s a ∨
      ∃ i, decodeWord (fetchWord s) = some i ∧ ∃ b ∈ storeAddresses s i, effective b = effective a := by
  obtain ⟨i, hi, hx⟩ | ⟨-, rfl⟩ := step_cases h
  · by_cases hstored : ∃ b ∈ storeAddresses s i, effective b = effective a
    · exact .inr ⟨i, hi, hstored⟩
    · push Not at hstored
      rw [← storeAddresses_advancePc] at hstored
      have hkept : readByte t a = readByte (advancePc s) a := exec_readByte_other hx hstored
      exact .inl hkept
  · exact .inl rfl

/-- What a step on an instruction does to `faulted` (R78). -/
theorem step_faulted {s t : State} {i : Instr} (h : step s = .next t) (hi : decodeWord (fetchWord s) = some i) :
    t.faulted = (s.faulted || (storeAddresses s i).any marksGlyphWrite) := by
  rw [step_of_decodeWord_eq_some hi] at h
  rw [exec_faulted h, advancePc_faulted, storeAddresses_advancePc]

/-- No step clears `faulted` (R78). -/
theorem step_faulted_sticky {s t : State} (h : step s = .next t) (hs : s.faulted = true) : t.faulted = true := by
  obtain ⟨i, hi, -⟩ | ⟨-, rfl⟩ := step_cases h
  · rw [step_faulted h hi, hs, Bool.true_or]
  · exact hs

/-- Settles O45. -/
theorem onlyStoresChangeMemory : Obligations.OnlyStoresChangeMemory :=
  fun _ _ a h hne => (step_readByte_kept_or_stored h a).resolve_left hne

/-- Settles O46: a glyph byte is at no store address of the step, or it is at one, which `FAULT` marks. -/
theorem glyphWritesLeaveAMark : Obligations.GlyphWritesLeaveAMark := by
  intro s t h
  refine ⟨step_faulted_sticky h, fun k hk => ?_⟩
  obtain hkept | ⟨i, hi, b, hb, heff⟩ := step_readByte_kept_or_stored h (fontBase + k)
  · exact .inl hkept
  · rcases hmode : glyphWriteMode with _ | _
    case perform => exact .inr (.inl rfl)
    case fault =>
      have hmark : (storeAddresses s i).any marksGlyphWrite = true :=
        List.any_eq_true.mpr ⟨b, hb, marksGlyphWrite_of_glyph hk heff hmode⟩
      exact .inr (.inr (by rw [step_faulted h hi, hmark, Bool.or_true]))

end Sys2Proof.Safety
end

section
/-! PROOFS. Draws (44_display.md): what composing a sprite into the framebuffer does, from one bit to a row to the whole
sprite, and the mask it amounts to. -/

namespace Sys2Proof.Machine

/-! ## Composing a mask -/

/-- What it means to compose a mask into a framebuffer with its collision flag (R222, R223): every pixel becomes the
exclusive or with the mask, and the flag is set when the mask meets a lit pixel, else kept. -/
structure Composes (mask : Fin 64 → Fin 32 → Bool) (c c' : Framebuffer × Bool) : Prop where
  pixels : ∀ px py, pixel c'.1 px py = (pixel c.1 px py != mask px py)
  collision : c'.2 = true ↔ c.2 = true ∨ ∃ px py, pixel c.1 px py = true ∧ mask px py = true

/-- The mask of one sprite bit at one place. -/
def bitMask (bit : Bool) (px : Fin 64) (py : Fin 32) (qx : Fin 64) (qy : Fin 32) : Bool :=
  bit && decide (qx = px ∧ qy = py)

theorem bitMask_eq_true {bit : Bool} {px qx : Fin 64} {py qy : Fin 32} :
    bitMask bit px py qx qy = true ↔ bit = true ∧ qx = px ∧ qy = py := by
  simp [bitMask]

/-- The mask of `n` masks together. -/
def unionMask (n : Nat) (mask : Nat → Fin 64 → Fin 32 → Bool) (qx : Fin 64) (qy : Fin 32) : Bool :=
  (List.range n).any (fun k => mask k qx qy)

theorem unionMask_eq_true {n : Nat} {mask : Nat → Fin 64 → Fin 32 → Bool} {qx : Fin 64} {qy : Fin 32} :
    unionMask n mask qx qy = true ↔ ∃ k < n, mask k qx qy = true := by
  simp [unionMask]

theorem unionMask_succ (n : Nat) (mask : Nat → Fin 64 → Fin 32 → Bool) (qx : Fin 64) (qy : Fin 32) :
    unionMask (n + 1) mask qx qy = (unionMask n mask qx qy || mask n qx qy) := by
  simp [unionMask, List.range_succ]

/-- Plotting a bit composes its mask. -/
theorem composes_plotBit (bit : Bool) (px : Fin 64) (py : Fin 32) (c : Framebuffer × Bool) :
    Composes (bitMask bit px py) c (plotBit bit px py c) where
  pixels qx qy := pixel_plotBit bit px qx py qy c
  collision := by
    simp only [collision_plotBit, Bool.or_eq_true, Bool.and_eq_true, bitMask_eq_true]
    constructor
    · rintro (hc | ⟨hbit, hlit⟩)
      · exact .inl hc
      · exact .inr ⟨px, py, hlit, hbit, rfl, rfl⟩
    · rintro (hc | ⟨_, _, hlit, hbit, rfl, rfl⟩)
      · exact .inl hc
      · exact .inr ⟨hbit, hlit⟩

/-- The empty mask composes to no change. -/
theorem composes_unionMask_zero (mask : Nat → Fin 64 → Fin 32 → Bool) (c : Framebuffer × Bool) :
    Composes (unionMask 0 mask) c c where
  pixels _ _ := (Bool.xor_false _).symm
  collision := by simp [unionMask]

/-- Two masks that share no pixel, composed in turn, compose to their union: the second meets what the first left alone. -/
theorem Composes.or {m m' : Fin 64 → Fin 32 → Bool} {c c' c'' : Framebuffer × Bool} (h : Composes m c c')
    (h' : Composes m' c' c'') (hdisj : ∀ px py, m px py = true → m' px py = false) :
    Composes (fun px py => m px py || m' px py) c c'' where
  pixels px py := by
    rw [h'.pixels, h.pixels]
    cases hm : m px py
    · simp
    · simp [hdisj px py hm]
  collision := by
    have hlit : ∀ px py, m' px py = true → pixel c'.1 px py = pixel c.1 px py := by
      intro px py hm'
      have hm : m px py = false := by
        by_contra hm
        simp [hdisj px py (by simpa using hm)] at hm'
      rw [h.pixels, hm, Bool.bne_false]
    rw [h'.collision, h.collision, or_assoc]
    refine or_congr_right ⟨?_, ?_⟩
    · rintro (⟨px, py, hp, hm⟩ | ⟨px, py, hp, hm'⟩)
      · exact ⟨px, py, hp, by rw [hm, Bool.true_or]⟩
      · exact ⟨px, py, (hlit px py hm').symm.trans hp, by rw [hm', Bool.or_true]⟩
    · rintro ⟨px, py, hp, hm⟩
      obtain hm | hm' := Bool.or_eq_true_iff.mp hm
      · exact .inl ⟨px, py, hp, hm⟩
      · exact .inr ⟨px, py, (hlit px py hm').trans hp, hm'⟩

/-- Masks of which no two share a pixel, composed one after the other, compose to their union. -/
theorem composes_foldl_range {mask : Nat → Fin 64 → Fin 32 → Bool}
    {f : Framebuffer × Bool → Nat → Framebuffer × Bool} (hf : ∀ c k, Composes (mask k) c (f c k)) (n : Nat)
    (hdisj : ∀ j k px py, j < n → k < n → mask j px py = true → mask k px py = true → j = k)
    (c : Framebuffer × Bool) : Composes (unionMask n mask) c ((List.range n).foldl f c) := by
  induction n with
  | zero => exact composes_unionMask_zero mask c
  | succ n ih =>
    have hfirst := ih fun j k px py hj hk => hdisj j k px py (by omega) (by omega)
    have hnew : ∀ px py, unionMask n mask px py = true → mask n px py = false := by
      intro px py hm
      obtain ⟨k, hk, hmk⟩ := unionMask_eq_true.mp hm
      by_contra hmn
      have := hdisj k n px py (by omega) (by omega) hmk (by simpa using hmn)
      omega
    rw [List.range_succ, List.foldl_append, funext₂ (unionMask_succ n mask)]
    exact hfirst.or (hf _ n) hnew

/-! ## Rows and sprites -/

/-- Eight columns from any place on are eight different pixel columns (R224). -/
theorem pixelX_inj {vx : Byte} {j k : Nat} (hj : j < 64) (hk : k < 64) (h : pixelX vx j = pixelX vx k) : j = k := by
  have := congrArg Fin.val h
  simp only [pixelX, Fin.val_ofNat] at this
  omega

/-- Thirty-two rows from any place on are as many different pixel rows (R224). -/
theorem pixelY_inj {vy : Byte} {j k : Nat} (hj : j < 32) (hk : k < 32) (h : pixelY vy j = pixelY vy k) : j = k := by
  have := congrArg Fin.val h
  simp only [pixelY, Fin.val_ofNat] at this
  omega

/-- The mask of one sprite row. -/
def rowMask (b vx vy : Byte) (row : Nat) : Fin 64 → Fin 32 → Bool :=
  unionMask 8 (fun col => bitMask (spriteBit b col) (pixelX vx col) (pixelY vy row))

theorem rowMask_eq_true {b vx vy : Byte} {row : Nat} {px : Fin 64} {py : Fin 32} :
    rowMask b vx vy row px py = true ↔
      ∃ col < 8, spriteBit b col = true ∧ px = pixelX vx col ∧ py = pixelY vy row := by
  simp only [rowMask, unionMask_eq_true, bitMask_eq_true]

/-- Plotting a row composes its mask: its eight bits fall on different columns. -/
theorem composes_plotRow (b vx vy : Byte) (row : Nat) (c : Framebuffer × Bool) :
    Composes (rowMask b vx vy row) c (plotRow b vx vy row c) := by
  refine composes_foldl_range (fun c col => composes_plotBit _ _ _ c) 8 (fun j k px py hj hk hmj hmk => ?_) c
  obtain ⟨-, hpx, -⟩ := bitMask_eq_true.mp hmj
  obtain ⟨-, hpx', -⟩ := bitMask_eq_true.mp hmk
  exact pixelX_inj (by omega) (by omega) (hpx.symm.trans hpx')

/-- The mask of a sprite of `n` rows. -/
def spriteMask (s : State) (vx vy : Byte) (n : Nibble) : Fin 64 → Fin 32 → Bool :=
  unionMask n.toNat (fun row => rowMask (readByte s (indexed s row)) vx vy row)

/-- Drawing a sprite composes its mask into a clear flag: its rows fall on different pixel rows. -/
theorem composes_drawSprite (s : State) (vx vy : Byte) (n : Nibble) :
    Composes (spriteMask s vx vy n) (s.fb, false) (drawSprite s vx vy n) := by
  have hn := n.isLt
  refine composes_foldl_range (fun c row => composes_plotRow _ vx vy row c) n.toNat
    (fun j k px py hj hk hmj hmk => ?_) (s.fb, false)
  obtain ⟨_, -, -, -, hpy⟩ := rowMask_eq_true.mp hmj
  obtain ⟨_, -, -, -, hpy'⟩ := rowMask_eq_true.mp hmk
  exact pixelY_inj (by omega) (by omega) (hpy.symm.trans hpy')

/-- A column within 64 of `vx` is a pixel column's distance from it (R224). -/
theorem eq_pixelX_iff {vx : Byte} {col : Nat} {px : Fin 64} (hcol : col < 64) :
    px = pixelX vx col ↔ (px.val + 256 - vx.toNat) % 64 = col := by
  have hvx := vx.isLt
  have hpx := px.isLt
  simp only [Fin.ext_iff, pixelX, Fin.val_ofNat]
  omega

/-- A row within 32 of `vy` is a pixel row's distance from it (R224). -/
theorem eq_pixelY_iff {vy : Byte} {row : Nat} {py : Fin 32} (hrow : row < 32) :
    py = pixelY vy row ↔ (py.val + 256 - vy.toNat) % 32 = row := by
  have hvy := vy.isLt
  have hpy := py.isLt
  simp only [Fin.ext_iff, pixelY, Fin.val_ofNat]
  omega

end Sys2Proof.Machine

namespace Sys2Proof.Safety

open Sys2Proof.Machine

/-- What the closed form of the mask says of a pixel. -/
theorem spriteCovers_eq_true {s : State} {vx vy : Byte} {n : Nibble} {px : Fin 64} {py : Fin 32} :
    spriteCovers s vx vy n px py = true ↔
      (px.val + 256 - vx.toNat) % 64 < 8 ∧ (py.val + 256 - vy.toNat) % 32 < n.toNat ∧
        spriteBit (readByte s (indexed s ((py.val + 256 - vy.toNat) % 32))) ((px.val + 256 - vx.toNat) % 64) = true := by
  simp only [spriteCovers, Bool.and_eq_true, decide_eq_true_eq]

/-- The mask a draw composes, bit by bit, is its closed form. -/
theorem spriteMask_eq_spriteCovers (s : State) (vx vy : Byte) (n : Nibble) :
    spriteMask s vx vy n = spriteCovers s vx vy n := by
  have hn := n.isLt
  funext px py
  rw [Bool.eq_iff_iff, spriteCovers_eq_true, spriteMask, unionMask_eq_true]
  constructor
  · rintro ⟨row, hrow, hmask⟩
    obtain ⟨col, hcol, hbit, hpx, hpy⟩ := rowMask_eq_true.mp hmask
    rw [(eq_pixelX_iff (by omega)).mp hpx, (eq_pixelY_iff (by omega)).mp hpy]
    exact ⟨hcol, hrow, hbit⟩
  · rintro ⟨hcol, hrow, hbit⟩
    exact ⟨_, hrow, rowMask_eq_true.mpr
      ⟨_, hcol, hbit, (eq_pixelX_iff (by omega)).mpr rfl, (eq_pixelY_iff (by omega)).mpr rfl⟩⟩

/-- Drawing a sprite composes the closed form of its mask. -/
theorem composes_spriteCovers (s : State) (vx vy : Byte) (n : Nibble) :
    Composes (spriteCovers s vx vy n) (s.fb, false) (drawSprite s vx vy n) :=
  spriteMask_eq_spriteCovers s vx vy n ▸ composes_drawSprite s vx vy n

/-- Settles O34: the draw composes the mask, and writes the flag to VF last. -/
theorem drawXorsTheSpriteMask : Obligations.DrawXorsTheSpriteMask := by
  intro s x y n
  have hdraw := composes_spriteCovers s (getV s x) (getV s y) n
  refine ⟨_, rfl, hdraw.pixels, fun hmeet => ?lit, fun hmiss => ?clear, registersKept_execDrw rfl,
    exec_onlyChanges (i := .drw x y n) rfl⟩
  case lit => rw [getV_setV_same, hdraw.collision.mpr (.inr hmeet)]; rfl
  case clear =>
    have hflag : (drawSprite s (getV s x) (getV s y) n).2 = false := by
      rw [Bool.eq_false_iff, Ne, hdraw.collision]
      rintro (hf | ⟨px, py, hlit, hmask⟩)
      · cases hf
      · simp [hmiss px py hlit] at hmask
    rw [getV_setV_same, hflag]; rfl

/-- The mask depends on memory and `I` alone. -/
theorem spriteCovers_congr {s t : State} (hmem : unchanged s t .memory) (hi : unchanged s t .i) (vx vy : Byte)
    (n : Nibble) : spriteCovers t vx vy n = spriteCovers s vx vy n := by
  have hread : ∀ a, readByte t a = readByte s a := hmem
  have hreg : t.i = s.i := hi
  funext px py
  simp only [spriteCovers, indexed, hread, hreg]

/-- Settles O35: a clear framebuffer meets no mask, and a second draw composes the mask of the first again. -/
theorem drawTwiceErases : Obligations.DrawTwiceErases := by
  constructor
  · intro s x y n hclear
    obtain ⟨t, ht, -, -, hmiss, -⟩ := drawXorsTheSpriteMask s x y n
    exact ⟨t, ht, hmiss fun px py hlit => absurd hlit (by simp [hclear px py])⟩
  · intro s x y n hx hy
    obtain ⟨t, ht, hpixels, -, -, hregs, hframe⟩ := drawXorsTheSpriteMask s x y n
    obtain ⟨u, hu, hpixels', -⟩ := drawXorsTheSpriteMask t x y n
    have hmask : spriteCovers t (getV t x) (getV t y) n = spriteCovers s (getV s x) (getV s y) n := by
      rw [hregs x (by simpa using hx), hregs y (by simpa using hy),
        spriteCovers_congr (hframe .memory (by decide)) (hframe .i (by decide))]
    refine ⟨t, u, ht, hu, fun px py => ?_⟩
    rw [hpixels', hpixels, hmask, Bool.bne_assoc, bne_self_eq_false, Bool.bne_false]

end Sys2Proof.Safety
end

section
/-! PROOFS. Input latch (45_input_timers.md): the key found is the least pressed one, and what a key skip does inside the
latch and above 15. -/

namespace Sys2Proof.Machine

/-- No key below the one found is pressed (R244). -/
theorem getKey_of_lt_firstKey {s : State} {j k : Fin 16} (h : firstKey s = some k) (hj : j < k) :
    getKey s j = false := by
  obtain ⟨-, before, after, hsplit, hbefore⟩ := List.find?_eq_some_iff_append.mp h
  have hmem : j ∈ before ++ k :: after := hsplit ▸ List.mem_finRange j
  have hsorted : (before ++ k :: after).Pairwise (· < ·) := hsplit ▸ List.pairwise_lt_finRange 16
  obtain hj' | hj' := List.mem_append.mp hmem
  · simpa using hbefore j hj'
  · obtain rfl | hlater := List.mem_cons.mp hj'
    · exact absurd hj (lt_irrefl _)
    · have hkj : k < j := (List.pairwise_cons.mp (List.pairwise_append.mp hsorted).2.1).1 j hlater
      exact absurd hj hkj.asymm

/-- The key found is the least pressed key (R244). -/
theorem firstKey_eq_some_of_least {s : State} {k : Fin 16} (hk : getKey s k = true)
    (hleast : ∀ j, j < k → getKey s j = false) : firstKey s = some k := by
  cases hfound : firstKey s with
  | none =>
    rw [(firstKey_none s).mp hfound k] at hk
    cases hk
  | some j =>
    obtain hlt | rfl | hgt := lt_trichotomy j k
    · exact absurd (firstKey_pressed s hfound) (by simp [hleast j hlt])
    · rfl
    · exact absurd hk (by simp [getKey_of_lt_firstKey hfound hgt])

/-- What a key skip that skips on `c` does to the draw counter and to `pc`, with the pressed state it reads (R240). -/
theorem skipIf_keyOperandState (s : State) (k : Byte) (c : Bool → Bool) :
    (∀ h : k.toNat < 16, (skipIf (c (keyOperand s k)) (keyOperandState s k)).keyDraws = s.keyDraws ∧
      (skipIf (c (keyOperand s k)) (keyOperandState s k)).pc =
        if c (getKey s ⟨k.toNat, h⟩) then s.pc + 2#16 else s.pc) ∧
    (15 < k.toNat → (skipIf (c (keyOperand s k)) (keyOperandState s k)).keyDraws = s.keyDraws + 1 ∧
      (skipIf (c (keyOperand s k)) (keyOperandState s k)).pc =
        if c (Config.keyOutOfRange s.keyDraws) then s.pc + 2#16 else s.pc) := by
  constructor
  · intro h
    obtain ⟨hpressed, hstate⟩ := keyOperand_inside s h
    rw [hpressed, hstate, skipIf_eq]
    exact ⟨rfl, rfl⟩
  · intro h
    obtain ⟨hpressed, hstate⟩ := keyOperand_outside s h
    rw [hpressed, hstate, skipIf_eq]
    exact ⟨rfl, rfl⟩

end Sys2Proof.Machine

namespace Sys2Proof.Safety

open Sys2Proof.Machine

/-- Settles O36: SKP skips on the pressed state, SKNP on its negation. -/
theorem keySkips : Obligations.KeySkips := by
  intro s x
  constructor
  · exact ⟨_, rfl, onlyChanges_skipIf_keyOperandState _ _ s, skipIf_keyOperandState s (getV s x) id⟩
  · refine ⟨_, rfl, onlyChanges_skipIf_keyOperandState _ _ s, ?_⟩
    have hskip := skipIf_keyOperandState s (getV s x) (! ·)
    simpa only [Bool.not_eq_true', ← Bool.not_eq_true, ite_not] using hskip

/-- Settles O38: with no key pressed none is found, and the least pressed key is the one found. -/
theorem waitForKey : Obligations.WaitForKey := by
  intro s x
  cases hfound : firstKey s with
  | none =>
    have hnone := (firstKey_none s).mp hfound
    exact ⟨_, exec_ldVxK_of_firstKey_eq_none x hfound, fun _ => ⟨rfl, onlyChanges_setPc s _⟩,
      fun k hk _ => absurd hk (by simp [hnone k])⟩
  | some k =>
    refine ⟨_, exec_ldVxK_of_firstKey_eq_some x hfound, fun hnone => ?_, fun k0 hk0 hleast => ?_⟩
    · exact absurd (firstKey_pressed s hfound) (by simp [hnone k])
    · obtain rfl : k = k0 := Option.some.inj (hfound.symm.trans (firstKey_eq_some_of_least hk0 hleast))
      refine ⟨?_, registersKept_setV s x _, onlyChanges_setV s x _⟩
      rw [getV_setV_same, toNat_ofNat_byte (by omega)]

/-- Writing back the `pc` an advance started from undoes the advance. -/
theorem setPc_advancePc (s : State) : setPc (advancePc s) s.pc = s := rfl

/-- Settles O39: the roll-back and the jump both write back the `pc` the step started from. -/
theorem waitAndSelfJumpLeaveTheStateAlone : Obligations.WaitAndSelfJumpLeaveTheStateAlone := by
  constructor
  · intro s x hi hnone
    have hfound : firstKey (advancePc s) = none := (firstKey_none _).mpr hnone
    rw [step_of_decodeWord_eq_some hi, exec_ldVxK_of_firstKey_eq_none x hfound, advancePc_pc,
      BitVec.add_sub_cancel, setPc_advancePc]
  · intro s nnn hw hpc
    have hi : decodeWord (fetchWord s) = some (.jp nnn) := hw ▸ decodeWord_encode (.jp nnn)
    have htarget : zextAddr nnn = s.pc := BitVec.eq_of_toNat_eq (by rw [zextAddr_toNat, hpc])
    rw [step_of_decodeWord_eq_some hi, exec, execJp, htarget, setPc_advancePc]

end Sys2Proof.Safety
end

section
/-! PROOFS. Reset and host actions (70_reset_and_hazards.md, 60_exceptions.md): the state after construction, the load, the
key set and query, and the framebuffer read. -/

namespace Sys2Proof.Machine

/-- A byte after construction is the reset byte of its masked address (R47). -/
theorem readByte_reset (a : Nat) : readByte State.reset a = resetByte (effective a) := rfl

/-- A masked address inside memory is itself. -/
theorem effective_of_lt {a : Nat} (h : a < 4096) : effective a = a := by
  rw [effective_eq_mod, Nat.mod_eq_of_lt h]

/-- The glyph table lies at `FONT_BASE` after construction (R291). -/
theorem readByte_reset_glyph {k : Nat} (hk : k < 80) : readByte State.reset (fontBase + k) = glyphByte k := by
  have hf := fontBase_lt
  rw [readByte_reset, effective_of_lt (by omega), resetByte, if_pos (inGlyphRegion_fontBase_add hk),
    Nat.add_sub_cancel_left]

/-- Every byte outside the glyph table is 0 after construction (R47, D6). -/
theorem readByte_reset_outside {a : Nat} (ha : a < 4096) (hout : a < fontBase ∨ fontBase + 80 ≤ a) :
    readByte State.reset a = 0#8 := by
  have hglyph : ¬ inGlyphRegion a = true := by
    rw [inGlyphRegion_iff, glyphBytes]
    omega
  rw [readByte_reset, effective_of_lt ha, resetByte, if_neg hglyph]

/-- An image the load accepts is placed from 0x200 on (R292). -/
theorem loadProgram_of_length_le {image : List Byte} (s : State) (h : image.length ≤ maxProgram) :
    loadProgram image s = .next { s with mem := placeBytes s.mem programBase image } :=
  if_pos (decide_eq_true h)

/-- A longer image is refused (R292). -/
theorem loadProgram_of_lt_length {image : List Byte} (s : State) (h : maxProgram < image.length) :
    loadProgram image s = .refused .imageTooLong :=
  if_neg (by simpa [imageWellFormed] using h)

/-- A load is refused in a session past construction (R292, D19). -/
theorem hostApply_load_of_phase_ne {ss : Session} (image : List Byte) (h : ss.phase ≠ .constructed) :
    hostApply ss (.load image) = .refused .loadNotAllowed := by
  rcases hphase : ss.phase with _ | _ | _
  case constructed => exact absurd hphase h
  all_goals rw [hostApply, hphase]

/-- The boot phase an action leaves a session in: loaded after a load, running after a step, else as before (R293). -/
def phaseAfter (p : BootPhase) : HostEvent → BootPhase
  | .load _ => .loaded
  | .step => .running
  | _ => p

/-- An accepted action leaves the phase of its kind. -/
theorem hostApply_phase {ss ss' : Session} {e : HostEvent} (h : hostApply ss e = .next ss') :
    ss'.phase = phaseAfter ss.phase e := by
  cases e with
  | load image =>
    rcases hphase : ss.phase with _ | _ | _ <;> simp only [hostApply, hphase] at h
    case constructed => exact (inPhase_next h).2
    all_goals cases h
  | step => exact (inPhase_next h).2
  | setKey k pressed => exact (inPhase_next h).2
  | queryKey k => exact congrArg Session.phase (afterQuery_next h)
  | tick | readFramebuffer => cases h; rfl

/-- An accepted key set (R272). -/
theorem setKey_of_lt {k : Nat} (pressed : Bool) (s : State) (h : k < 16) :
    setKey k pressed s = .next { s with key := s.key.set k pressed } :=
  dif_pos h

/-- An accepted key query (R273). -/
theorem isKeyPressed_of_lt {k : Nat} (s : State) (h : k < 16) : isKeyPressed k s = .next (getKey s ⟨k, h⟩) :=
  dif_pos h

/-- The latch entry just set reads what was set. -/
theorem getKey_set_same (s : State) {k : Nat} (pressed : Bool) (h : k < 16) :
    getKey { s with key := s.key.set k pressed } ⟨k, h⟩ = pressed := by
  simp [getKey]

/-- Setting one latch entry leaves every other as it was. -/
theorem getKey_set_other (s : State) {k : Nat} (pressed : Bool) (h : k < 16) {j : Fin 16} (hj : j.val ≠ k) :
    getKey { s with key := s.key.set k pressed } j = getKey s j := by
  simp [getKey, hj.symm]

end Sys2Proof.Machine

namespace Sys2Proof.Safety

open Sys2Proof.Machine

/-- Settles O50: the reset memory is in canonical form, and a placed word keeps it so. -/
theorem resetMeetsTheMemoryInvariant : Obligations.ResetMeetsTheMemoryInvariant :=
  ⟨reset_mem_wf, fun _ _ => placeFetchWord_wf _ reset_mem_wf⟩

/-- Settles O51: the fields of the record, the glyph table and the bytes beside it. -/
theorem resetValues : Obligations.ResetValues := by
  refine ⟨rfl, fun r => ?v, rfl, rfl, fun j => ?stack, rfl, rfl, fun px py => ?pixels, fun k => ?keys, rfl, rfl,
    fun k hk => readByte_reset_glyph hk, fun a ha hout => readByte_reset_outside ha hout⟩
  case v => simp [getV, State.reset]
  case stack => simp [getStack, State.reset]
  case pixels => exact pixel_clearFb px py
  case keys => simp [getKey, State.reset]

/-- A key set changes the latch alone (R272). -/
theorem onlyChanges_key (s : State) (key : Vector Bool 16) : onlyChanges [.key] s { s with key := key } := by
  intro p hp
  cases p <;> simp_all [unchanged, getV, getStack, readByte]

/-- A memory write changes memory alone. -/
theorem onlyChanges_mem (s : State) (m : Memory) : onlyChanges [.memory] s { s with mem := m } := by
  intro p hp
  cases p <;> simp_all [unchanged, getV, getStack, getKey]

/-- Settles O53: inside the latch a set and a query of one entry, outside it two refusals. -/
theorem keySetThenQuery : Obligations.KeySetThenQuery := by
  intro s k pressed
  constructor
  · intro h
    refine ⟨isKeyPressed_of_lt s h, _, setKey_of_lt pressed s h, ?_, fun j hj => getKey_set_other s pressed h hj,
      onlyChanges_key s _⟩
    rw [isKeyPressed_of_lt _ h, getKey_set_same]
  · intro h
    exact ⟨dif_neg (by omega), dif_neg (by omega)⟩

/-- Settles O54: the index of a pixel is below 2048, and its column and row are the remainder and the quotient by 64. -/
theorem framebufferReadIsLinear : Obligations.FramebufferReadIsLinear := by
  intro s px py
  have hpx := px.isLt
  have hpy := py.isLt
  have hlt : px.val + py.val * 64 < 2048 := by omega
  have hcol : Fin.ofNat 64 (px.val + py.val * 64) = px := Fin.ext (by simp only [Fin.val_ofNat]; omega)
  have hrow : Fin.ofNat 32 ((px.val + py.val * 64) / 64) = py := Fin.ext (by simp only [Fin.val_ofNat]; omega)
  rw [Vector.getElem?_eq_getElem hlt, readFramebuffer, Vector.getElem_ofFn, hcol, hrow]

/-- A load of at most 3584 bytes: the image verbatim, every other byte and every other part as before (R292). -/
theorem loadProgram_writes_image (s : State) {image : List Byte} (h : image.length ≤ maxProgram) :
    ∃ t, loadProgram image s = .next t ∧
      (∀ k (hk : k < image.length), readByte t (0x200 + k) = image[k]) ∧
      (∀ a < 4096, (a < 0x200 ∨ 0x200 + image.length ≤ a) → readByte t a = readByte s a) ∧
      onlyChanges [.memory] s t := by
  have hl : image.length ≤ 3584 := h
  refine ⟨_, loadProgram_of_length_le s h, fun k hk => ?_, fun a ha hout => ?_, onlyChanges_mem s _⟩
  · exact memGet_placeBytes image s.mem programBase k hk (by omega)
  · refine memGet_placeBytes_other image s.mem programBase _ fun k hk => ?_
    rw [effective_of_lt ha, effective_of_lt (by rw [programBase]; omega), programBase]
    omega

/-- Settles O55: the two answers of a load to an image, the refusal past construction, and the phase after each action. -/
theorem loadWritesTheImageOnce : Obligations.LoadWritesTheImageOnce := by
  refine ⟨fun s image hl => loadProgram_writes_image s hl, fun s image hl => loadProgram_of_lt_length s hl,
    fun ss image hp => hostApply_load_of_phase_ne image hp, fun ss ss' e h => ?_⟩
  have hphase := hostApply_phase h
  refine ⟨?step, ?load, ?back⟩
  case step => rintro rfl; exact hphase
  case load => rintro ⟨image, rfl⟩; exact hphase
  case back =>
    intro hc
    cases e with
    | load _ | step => cases hphase.symm.trans hc
    | _ => exact hphase.symm.trans hc

end Sys2Proof.Safety
end
